-- ==== Sys2Proof/Word.lean ====
section
/-! DEFINITION. The values the machine holds: integers, texts and raw memory cells.

The machine has no bit-level encoding: every value is a mathematical integer of unbounded magnitude
(00_scope.md R6, R11), so the word type is `Int` itself and nothing here is a bit vector. -/

namespace Sys2Proof

/-- A text token of a cell, as the list of its characters (10_state.md R21; notes/assumptions/6.md). -/
abbrev Text := List Char

/-- The raw content of one memory cell (10_state.md R21). -/
inductive Cell where
  /-- Nothing entered. -/
  | empty
  /-- An integer: what the core writes and what the harness clones. -/
  | num (n : Int)
  /-- A text token: a mnemonic, a decimal literal, or anything else. -/
  | text (s : Text)
  deriving DecidableEq, Repr

/-- What the host can enter at one cell of a program: a text or a number, since a cell the program leaves Empty has no
key (10_state.md R22). The values of a test case are taken from the same type. That is a DESIGN CHOICE:
45_testbench.md R129 says of them only that they are tokens, and R110 counts Empty among the raw tokens
(notes/assumptions/16.md). -/
inductive Token where
  | num (n : Int)
  | text (s : Text)
  deriving DecidableEq, Repr

end Sys2Proof
end

