-- ==== Sys2Proof/Config.lean ====
section
/-! DEFINITION. The parameters of a machine instance (00_scope.md R4), the constants of this hardware, and the one
free value. -/

namespace Sys2Proof

/-- The parameters of 00_scope.md R4 that differ between machine instances, fixed for the lifetime of one instance.
They stand in `Machine.State.cfg` and no step changes them (10_state.md R31; notes/assumptions/2.md). -/
structure Config where
  /-- `DIALECT.extended`: whether the dialect is the arithmetic-extended one, with MUL and DIV. -/
  extended : Bool
  /-- `DIV_IN_VALID_SET`: whether 53 is in the valid set of the extended dialect (00_scope.md R5). -/
  divInValidSet : Bool
  /-- `DIALECT.mnemonics`: the finite map from lower-case text to opcode (30_encoding.md R61, R76). -/
  mnemonics : List (Text × Int)
  deriving DecidableEq, Repr

/-- `MEM_SIZE`: the number of memory cells (00_scope.md R4, 10_state.md R20). -/
abbrev Config.memSize : Nat := 100

/-- `STEP_BUDGET`: the most steps the harness runs for one test case (00_scope.md R4, 45_testbench.md R121). -/
abbrev Config.stepBudget : Nat := 1000

/-- The part of `COERCE_OTHER` the spec leaves OPEN (30_encoding.md R60, 93_implementation_defined.md I3): the value of
a text that holds a decimal digit and is not a literal. A free value: nothing constrains it (notes/assumptions/3.md). -/
opaque Config.freeCoerceOther : Text → Int

end Sys2Proof
end

