-- ==== Sys2Proof/Syntax.lean ====
section
/-! DEFINITION. The instructions: one constructor per row of spec/opcode_table.json (30_encoding.md R64). -/

namespace Sys2Proof

/-- An instruction with its operand, the coerced integer of the operand cell (30_encoding.md R65, R66). STOP has no
operand: its operand cell is not fetched (R55). -/
inductive Instr where
  /-- STOP, code 0. -/
  | stop
  /-- ADDI, code 44; the operand is the value added. -/
  | addi (imm : Int)
  /-- SUBI, code 45; the operand is the value subtracted. -/
  | subi (imm : Int)
  /-- ADD, code 50; the operand is a cell index. -/
  | add (addr : Int)
  /-- SUB, code 51; the operand is a cell index. -/
  | sub (addr : Int)
  /-- MUL, code 52, extended dialect only; the operand is a cell index. -/
  | mul (addr : Int)
  /-- DIV, code 53, extended dialect with DIV_IN_VALID_SET only; the operand is a cell index. -/
  | div (addr : Int)
  /-- JPOS, code 127; the operand is the branch target. -/
  | jpos (target : Int)
  /-- JZERO, code 128; the operand is the branch target. -/
  | jzero (target : Int)
  /-- STORE, code 160; the operand is a cell index. -/
  | store (addr : Int)
  /-- LOAD, code 161; the operand is a cell index. -/
  | load (addr : Int)
  deriving DecidableEq, Repr

end Sys2Proof
end

