-- ==== Sys2Proof/WellFormed.lean ====
section
/-! DEFINITION. Which configurations and which instructions are well formed. -/

namespace Sys2Proof

/-- The codes of 30_encoding.md R61 that every dialect has. -/
def Config.baseCodes : List Int := [0, 44, 45, 50, 51, 127, 128, 160, 161]

/-- The codes of 30_encoding.md R61 that the extended dialect alone has: MUL and DIV. -/
def Config.extendedCodes : List Int := [52, 53]

/-- The key is lower-case text: no character `A` to `Z` stands in it (00_scope.md R4). -/
def Config.lowerKey (key : Text) : Bool := key.all fun c => !(65 ≤ c.toNat && c.toNat ≤ 90)

/-- The codes the dialect names: those of MUL and DIV in the extended dialect only (30_encoding.md R61, R76). -/
def Config.codes (cfg : Config) : List Int := if cfg.extended then baseCodes ++ extendedCodes else baseCodes

/-- The code is one that a dialect's mnemonic table may hold (30_encoding.md R76). -/
def Config.codeAllowed (cfg : Config) (code : Int) : Bool := code ∈ cfg.codes

/-- The keys the mnemonic table has for a code. -/
def Config.namesOf (cfg : Config) (code : Int) : List Text :=
  (cfg.mnemonics.filter fun e => e.2 == code).map Prod.fst

/-- The code has exactly one mnemonic name in the table (30_encoding.md R76). -/
def Config.namedOnce (cfg : Config) (code : Int) : Bool := (cfg.namesOf code).length == 1

/-- A configuration is well formed when its mnemonic table is a finite map from lower-case texts to the codes of its
dialect (30_encoding.md R61), with exactly one name for each of those codes (R76). -/
def Config.wellFormed (cfg : Config) : Bool :=
  cfg.mnemonics.all (fun e => lowerKey e.1 && cfg.codeAllowed e.2) && decide (cfg.mnemonics.map Prod.fst).Nodup &&
    cfg.codes.all cfg.namedOnce

/-- An instruction is well formed under a configuration when that configuration executes it (30_encoding.md R62, R64).
Every integer is an admissible operand (R66). -/
def Instr.wellFormed (cfg : Config) : Instr → Bool
  | .stop => true
  | .addi _ => true
  | .subi _ => true
  | .add _ => true
  | .sub _ => true
  | .mul _ => cfg.extended
  | .div _ => cfg.extended && cfg.divInValidSet
  | .jpos _ => true
  | .jzero _ => true
  | .store _ => true
  | .load _ => true

end Sys2Proof
end

