-- ==== Sys2Proof/Decode.lean ====
section
/-! DEFINITION. From raw cells to integers (coercion), from integers to instructions (the opcode map), and back (the
encoder), after 30_encoding.md. Decoding is total: what is no instruction is rejected by name (R70). -/

namespace Sys2Proof

/-! ### Characters and texts -/

/-- A space or a tab (30_encoding.md R57, R59). -/
def isBlankChar (c : Char) : Bool := c.toNat == 32 || c.toNat == 9

/-- A decimal digit `0` to `9` (30_encoding.md R59). -/
def isDigitChar (c : Char) : Bool := 48 ≤ c.toNat && c.toNat ≤ 57

/-- The value of a digit character. -/
def digitValue (c : Char) : Nat := c.toNat - 48

/-- `A` to `Z` become `a` to `z`; every other character stays (30_encoding.md R58). -/
def lowerChar (c : Char) : Char := if 65 ≤ c.toNat && c.toNat ≤ 90 then Char.ofNat (c.toNat + 32) else c

/-- `asciiLower` of 30_encoding.md R58. -/
def asciiLower (s : Text) : Text := s.map lowerChar

/-- The text is blank: only spaces and tabs, or nothing at all (30_encoding.md R57). -/
def isBlank (s : Text) : Bool := s.all isBlankChar

/-- The text holds a decimal digit: the texts on which 30_encoding.md R60 leaves `COERCE_OTHER` open. -/
def hasDigit (s : Text) : Bool := s.any isDigitChar

/-! ### Decimal literals (30_encoding.md R59) -/

/-- The number a run of digits spells, most significant digit first, leading zeros allowed. -/
def digitsValue (ds : Text) : Nat := ds.foldl (fun acc c => 10 * acc + digitValue c) 0

/-- An optional sign: whether the number is negated, and what stands after the sign. -/
def splitSign : Text → Bool × Text
  | [] => (false, [])
  | c :: rest => if c.toNat == 45 then (true, rest) else if c.toNat == 43 then (false, rest) else (false, c :: rest)

/-- The value of a text that matches `[ \t]* [+-]? [0-9]+ [ \t]*`, and none for every other text
(30_encoding.md R59). -/
def decimalLiteral? (s : Text) : Option Int :=
  let signed := splitSign (s.dropWhile isBlankChar)
  let digits := signed.2.takeWhile isDigitChar
  let after := signed.2.dropWhile isDigitChar
  if digits.isEmpty || !isBlank after then none
  else some (if signed.1 then -(digitsValue digits : Int) else (digitsValue digits : Int))

/-- The decimal literal a program writes for an integer (30_encoding.md R72, R77). -/
def decimalText (n : Int) : Text :=
  match n with
  | .ofNat k => Nat.toDigits 10 k
  | .negSucc k => '-' :: Nat.toDigits 10 (k + 1)

/-! ### Opcodes -/

/-- The opcodes by name (30_encoding.md R64). -/
inductive Opcode where
  | stop | addi | subi | add | sub | mul | div | jpos | jzero | store | load
  deriving DecidableEq, Repr

/-- The code of an opcode (30_encoding.md R61, R64). -/
def Opcode.code : Opcode → Int
  | .stop => 0
  | .addi => 44
  | .subi => 45
  | .add => 50
  | .sub => 51
  | .mul => 52
  | .div => 53
  | .jpos => 127
  | .jzero => 128
  | .store => 160
  | .load => 161

/-- The canonical mnemonic key of an opcode, in lower case (30_encoding.md R61). -/
def Opcode.key : Opcode → Text
  | .stop => ['s', 't', 'o', 'p']
  | .addi => ['a', 'd', 'd', 'i']
  | .subi => ['s', 'u', 'b', 'i']
  | .add => ['a', 'd', 'd']
  | .sub => ['s', 'u', 'b']
  | .mul => ['m', 'u', 'l']
  | .div => ['d', 'i', 'v']
  | .jpos => ['j', 'p', 'o', 's']
  | .jzero => ['j', 'z', 'e', 'r', 'o']
  | .store => ['s', 't', 'o', 'r', 'e']
  | .load => ['l', 'o', 'a', 'd']

/-- Every opcode, in the order of the opcode table. -/
def opcodeTable : List Opcode :=
  [.stop, .addi, .subi, .add, .sub, .mul, .div, .jpos, .jzero, .store, .load]

/-- The opcode exists in the dialect at all: MUL and DIV in the extended one only (30_encoding.md R61). -/
def Opcode.inDialect (extended : Bool) : Opcode → Bool
  | .mul => extended
  | .div => extended
  | _ => true

/-- The canonical mnemonic table of a dialect (30_encoding.md R61). `div` is a key of the extended dialect whatever
`DIV_IN_VALID_SET` is. -/
def canonicalMnemonics (extended : Bool) : List (Text × Int) :=
  (opcodeTable.filter (Opcode.inDialect extended)).map fun o => (o.key, o.code)

/-- The configuration with the canonical spellings. -/
def Config.canonical (extended divInValidSet : Bool) : Config :=
  { extended := extended, divInValidSet := divInValidSet, mnemonics := canonicalMnemonics extended }

/-- `VALID_BASE` of 30_encoding.md R62. -/
def validBase : List Int := [0, 44, 45, 50, 51, 127, 128, 160, 161]

/-- `ValidSet(cfg)` of 30_encoding.md R62: the opcodes a configuration executes. -/
def validSet (cfg : Config) : List Int :=
  if !cfg.extended then validBase
  else if !cfg.divInValidSet then validBase ++ [52]
  else validBase ++ [52, 53]

/-- The opcode a configuration reads from the value of an opcode cell: the whole value equals the code and is in the
valid set (30_encoding.md R54, R64). None for an invalid opcode (R68). -/
def opcodeOf (cfg : Config) (op : Int) : Option Opcode :=
  if op ∈ validSet cfg then opcodeTable.find? (fun o => o.code == op) else none

/-! ### Coercion (30_encoding.md R57) -/

/-- The mnemonic table's entry for a text: the whole text, lowered, equal to a key (30_encoding.md R58). -/
def lookupMnemonic (cfg : Config) (s : Text) : Option Int :=
  (cfg.mnemonics.find? fun e => e.1 == asciiLower s).map Prod.snd

/-- `COERCE_OTHER`: 0 on a text without a decimal digit, and a free value on every other text (30_encoding.md R60). -/
def coerceOther (s : Text) : Int := if hasDigit s then Config.freeCoerceOther s else 0

/-- Coercion of a text: blank, then mnemonic, then decimal literal, then `COERCE_OTHER` (30_encoding.md R57). -/
def coerceText (cfg : Config) (s : Text) : Int :=
  if isBlank s then 0
  else match lookupMnemonic cfg s with
    | some code => code
    | none => match decimalLiteral? s with
      | some n => n
      | none => coerceOther s

/-- `coerce`: the integer every read of a cell yields (30_encoding.md R57). -/
def coerce (cfg : Config) : Cell → Int
  | .empty => 0
  | .num n => n
  | .text s => coerceText cfg s

/-- `resolve`: `some v` for `Op(v)`, none for `Invalid` (30_encoding.md R63). -/
def resolve (cfg : Config) (c : Cell) : Option Int :=
  if coerce cfg c ∈ validSet cfg then some (coerce cfg c) else none

/-! ### The decoder -/

/-- What decoding a run of cells answers: an instruction with the cells after it, or a rejection by name. -/
inductive Decoded where
  /-- The cells begin with an instruction; `rest` are the cells after it. -/
  | instr (i : Instr) (rest : List Cell)
  /-- There is no opcode cell. -/
  | noOpcodeCell
  /-- The opcode cell's value is not in the valid set (30_encoding.md R68). -/
  | invalidOpcode (op : Int)
  /-- The opcode is valid and not STOP, and there is no operand cell. -/
  | noOperandCell
  deriving DecidableEq, Repr

/-- The instruction of an opcode and its operand (30_encoding.md R71). STOP has no operand. -/
def Opcode.build : Opcode → Int → Instr
  | .stop, _ => .stop
  | .addi, a => .addi a
  | .subi, a => .subi a
  | .add, a => .add a
  | .sub, a => .sub a
  | .mul, a => .mul a
  | .div, a => .div a
  | .jpos, a => .jpos a
  | .jzero, a => .jzero a
  | .store, a => .store a
  | .load, a => .load a

/-- The operand cell of a two-cell instruction, read after its opcode was found valid and not STOP. -/
def decodeOperand (cfg : Config) (o : Opcode) : List Cell → Decoded
  | [] => .noOperandCell
  | c :: rest => .instr (o.build (coerce cfg c)) rest

/-- The decoder: it reads the opcode cell, stops there for STOP and for an invalid opcode, and reads the operand cell
with the same coercion otherwise (30_encoding.md R53, R55, R56, R71). -/
def decodeCells (cfg : Config) : List Cell → Decoded
  | [] => .noOpcodeCell
  | c :: rest =>
    match opcodeOf cfg (coerce cfg c) with
    | none => .invalidOpcode (coerce cfg c)
    | some .stop => .instr .stop rest
    | some o => decodeOperand cfg o rest

/-! ### The encoder -/

/-- The opcode of an instruction. -/
def Instr.opcode : Instr → Opcode
  | .stop => .stop
  | .addi _ => .addi
  | .subi _ => .subi
  | .add _ => .add
  | .sub _ => .sub
  | .mul _ => .mul
  | .div _ => .div
  | .jpos _ => .jpos
  | .jzero _ => .jzero
  | .store _ => .store
  | .load _ => .load

/-- The operand of an instruction; none for STOP (30_encoding.md R65). -/
def Instr.operand? : Instr → Option Int
  | .stop => none
  | .addi a => some a
  | .subi a => some a
  | .add a => some a
  | .sub a => some a
  | .mul a => some a
  | .div a => some a
  | .jpos a => some a
  | .jzero a => some a
  | .store a => some a
  | .load a => some a

/-- The cells of an instruction, in integers: the opcode cell, then the operand cell where there is one
(30_encoding.md R53, R55). -/
def encode (i : Instr) : List Cell :=
  .num i.opcode.code :: (i.operand?.map Cell.num).toList

/-- The cells of an instruction as a program writes it: mnemonic, then decimal literal (30_encoding.md R72, R73). -/
def spell (i : Instr) : List Cell :=
  .text i.opcode.key :: (i.operand?.map fun a => Cell.text (decimalText a)).toList

/-- The cells of an instruction with the opcode too in decimal (30_encoding.md R77). -/
def spellDecimal (i : Instr) : List Cell :=
  .text (decimalText i.opcode.code) :: (i.operand?.map fun a => Cell.text (decimalText a)).toList

/-- The instruction the decoder reads from an opcode-table word: one cell is one word of unbounded width, so all of `w`
is the opcode cell and the operand cell is 0. The configuration is the one that executes every row of the table
(notes/assumptions/10.md). -/
def decodeTableWord (_nbits w : Nat) : Option Instr :=
  match decodeCells (Config.canonical true true) [.num (w : Int), .num 0] with
  | .instr i _ => some i
  | .noOpcodeCell => none
  | .invalidOpcode _ => none
  | .noOperandCell => none

end Sys2Proof
end

