-- ==== Sys2Proof/Machine/State.lean ====
section
/-! DEFINITION. The state of the core (10_state.md), its reset value, and the reasons an outcome can carry. -/

namespace Sys2Proof.Machine

/-- The kind of access an out-of-range fault records (10_state.md R28, 60_exceptions.md R131). -/
inductive AccessKind where
  | fetchOpcode
  | fetchOperand
  | dataRead
  | dataWrite
  deriving DecidableEq, Repr

/-- The run status (10_state.md R28). -/
inductive Status where
  | running
  | halted
  | faulted (kind : AccessKind) (index : Int)
  deriving DecidableEq, Repr

/-- The memory: the cells that are not Empty, as pairs of index and raw content, indices strictly rising and below 100
(10_state.md R20 to R22; `Memory.wf`). An index that is not listed holds `Cell.empty` (notes/assumptions/6.md). -/
abbrev Memory := List (Nat × Cell)

/-- The state of the core: the tuple of 10_state.md R35, and beside it the parameters of the machine instance, which
no step changes (10_state.md R31; notes/assumptions/2.md). -/
structure State where
  /-- `ACC`, the accumulator (10_state.md R24). -/
  acc : Int
  /-- `PC`, the program counter (10_state.md R26, R27). -/
  pc : Int
  /-- `status`, the run status (10_state.md R28). -/
  status : Status
  /-- `M[0..99]`, the raw cells (10_state.md R20, R21). -/
  mem : Memory
  /-- The parameters of 00_scope.md R4; not spec state. -/
  cfg : Config
  deriving DecidableEq, Repr

/-- The reasons a step can end in a host fault: there are none. Every step of this machine ends in a next state
(40_cycle.md R88, 60_exceptions.md R130): an out-of-range access is the state change `status <- Faulted(kind, index)`
(R133), not a stop of the model. Nobody raises a fault, which is safe (notes/assumptions/4.md). -/
inductive Fault where
  deriving DecidableEq, Repr

/-- The reasons something is refused. Instructions raise none of them; the host interface and the harness refuse what
the spec says they refuse. All are safe: what is refused changes nothing. -/
inductive Refusal where
  /-- An instruction without a meaning in this model, raised by `exec`'s refused arms; there is none today. Safe. -/
  | notModelled (mnemonic : String)
  /-- Raised by Load for a program with a key that is no index 0 to 99, or with one key twice
  (45_testbench.md R109; notes/assumptions/7.md). Safe. -/
  | badProgramKey
  /-- Raised by EditCell for an index outside 0 to 99 (45_testbench.md R110). Safe. -/
  | noSuchCell (index : Int)
  /-- Raised by every command but RequestHalt while a Run is in progress (45_testbench.md R117). Safe. -/
  | runInProgress
  /-- Raised by the harness for a suite with an ill-formed test case (45_testbench.md R129). Safe. -/
  | illFormedSuite
  deriving DecidableEq, Repr

/-- The machine after construction and reset with nothing loaded: PC, ACC and status as 10_state.md R34 says, every
cell Empty (notes/assumptions/5.md), and the configuration of notes/assumptions/2.md. -/
def State.reset : State :=
  { acc := 0, pc := 0, status := .running, mem := [], cfg := Config.canonical true false }

end Sys2Proof.Machine
end

