-- ==== Sys2Proof/Machine/Ops.lean ====
section
/-! DEFINITION. The named operations over memory and registers, taking the out-of-range fault, halting, and the reset
action. -/

namespace Sys2Proof.Machine

/-- What an instruction or a step answers. -/
abbrev Result := Host.Outcome State Fault Refusal

/-! ### Memory -/

/-- `inRange(i)`: the index names a cell (00_scope.md R13, 20_memory.md R45). -/
def inRange (i : Int) : Bool := decide (0 ≤ i) && decide (i < (Config.memSize : Int))

/-- The canonical form of memory: indices strictly rising and below `MEM_SIZE`, and no entry Empty. -/
abbrev Memory.wf (m : Memory) : Prop :=
  m.Pairwise (fun a b => a.1 < b.1) ∧ ∀ e ∈ m, e.1 < Config.memSize ∧ e.2 ≠ Cell.empty

/-- The raw content at an index; Empty where nothing is listed (10_state.md R22). -/
def Memory.peek (m : Memory) (i : Nat) : Cell :=
  match m with
  | [] => .empty
  | e :: rest => if e.1 = i then e.2 else Memory.peek rest i

/-- The entry put at its place in the rising order, replacing what stood there. -/
def Memory.insertCell (m : Memory) (i : Nat) (c : Cell) : Memory :=
  match m with
  | [] => [(i, c)]
  | e :: rest =>
    if i < e.1 then (i, c) :: e :: rest
    else if i = e.1 then (i, c) :: rest
    else e :: Memory.insertCell rest i c

/-- One cell replaced. Writing Empty removes the entry, so that the form stays canonical. -/
def Memory.poke (m : Memory) (i : Nat) (c : Cell) : Memory :=
  if c = .empty then m.filter (fun e => e.1 != i) else Memory.insertCell m i c

/-- The raw content of the cell an integer indexes, and none where no such cell exists (20_memory.md R45). -/
def Memory.cell? (m : Memory) (i : Int) : Option Cell :=
  if inRange i then some (m.peek i.toNat) else none

/-! ### State -/

/-- `ACC <- v`. -/
def State.setAcc (s : State) (v : Int) : State := { s with acc := v }

/-- `PC <- v`. -/
def State.setPc (s : State) (v : Int) : State := { s with pc := v }

/-- `status <- v`. -/
def State.setStatus (s : State) (v : Status) : State := { s with status := v }

/-- The memory replaced. -/
def State.setMem (s : State) (m : Memory) : State := { s with mem := m }

/-- `PC <- PC + 2`: the sequential successor (10_state.md R26, 43_branch.md R107). -/
def State.advancePc (s : State) : State := s.setPc (s.pc + 2)

/-- `MemRead(i, 1)`: the coerced integer of the cell, and none where it raises `OutOfBounds` (00_scope.md R13). -/
def State.memRead (s : State) (i : Int) : Option Int := (s.mem.cell? i).map (coerce s.cfg)

/-- `MemWrite(i, 1, v)`: the whole cell becomes `Num(v)`; none where it raises `OutOfBounds` (00_scope.md R13,
10_state.md R23). -/
def State.memWrite (s : State) (i v : Int) : Option State :=
  if inRange i then some (s.setMem (s.mem.poke i.toNat (.num v))) else none

/-! ### Ends of a step -/

/-- Taking the one exception of the machine, `raise OutOfBounds(kind, i)`: the status records kind and index, and
`ACC`, `PC` and memory keep their values (00_scope.md R14, 60_exceptions.md R133, R136). No control is transferred. -/
def raiseOutOfBounds (kind : AccessKind) (i : Int) (s : State) : Result := .next (s.setStatus (.faulted kind i))

/-- The reporting code of a fault kind (60_exceptions.md R131). -/
def AccessKind.code : AccessKind → Nat
  | .fetchOpcode => 1
  | .fetchOperand => 2
  | .dataRead => 3
  | .dataWrite => 4

/-- `halt`: the status becomes Halted and nothing else is written (00_scope.md R14). -/
def haltCore (s : State) : Result := .next (s.setStatus .halted)

/-- The reset action, the only way out of Halted and Faulted (70_reset_and_hazards.md R148, 60_exceptions.md R137):
`PC <- 0`, `ACC <- 0`, `status <- Running`, memory unchanged. -/
def State.resetAction (s : State) : State := ((s.setPc 0).setAcc 0).setStatus .running

end Sys2Proof.Machine
end

