-- ==== Sys2Proof/Machine/Operands.lean ====
section
/-! DEFINITION. The three roles of the operand (30_encoding.md R65) and the shared shapes of the instructions that use
them. The operand is used as the integer coercion gives (R66). -/

namespace Sys2Proof.Machine

/-- The value of an immediate operand: the operand itself (30_encoding.md R65). -/
def immediate (a : Int) : Int := a

/-- The effective address of a memory operand: `EA = a`, the one addressing mode (41_data_transfer.md R89). -/
def effectiveAddress (a : Int) : Int := a

/-- The target of a branch: absolute, the operand itself (43_branch.md R102). -/
def branchTarget (a : Int) : Int := a

/-- An instruction that computes `ACC` from `ACC` and an immediate, and goes on to `PC + 2`. -/
def accFromImmediate (f : Int → Int → Int) (a : Int) (s : State) : Result :=
  .next (s.setAcc (f s.acc (immediate a))).advancePc

/-- An instruction that computes `ACC` from `ACC` and one data cell, and goes on to `PC + 2`; out of range it raises
`OutOfBounds(DataRead, EA)` (41_data_transfer.md R89). -/
def accFromCell (f : Int → Int → Int) (a : Int) (s : State) : Result :=
  match s.memRead (effectiveAddress a) with
  | none => raiseOutOfBounds .dataRead (effectiveAddress a) s
  | some v => .next (s.setAcc (f s.acc v)).advancePc

/-- An instruction that writes a value to one data cell, and goes on to `PC + 2`; out of range it raises
`OutOfBounds(DataWrite, EA)` (41_data_transfer.md R89). -/
def cellFromValue (v a : Int) (s : State) : Result :=
  match s.memWrite (effectiveAddress a) v with
  | none => raiseOutOfBounds .dataWrite (effectiveAddress a) s
  | some t => .next t.advancePc

/-- A conditional branch: `PC <- a` if taken, else `PC <- PC + 2`. The target is not range-checked here
(43_branch.md R102, R105). -/
def branchIf (taken : Bool) (a : Int) (s : State) : Result :=
  .next (if taken then s.setPc (branchTarget a) else s.advancePc)

end Sys2Proof.Machine
end

