-- ==== Sys2Proof/Machine/Arithmetic.lean ====
section
/-! DEFINITION. The arithmetic instructions (42_arithmetic.md). Every result is exact in the integers (R92). -/

namespace Sys2Proof.Machine

/-- `a // b`: the floor of the exact quotient, for `b ≠ 0` (00_scope.md R11, 42_arithmetic.md R99, 90_conflicts.md C1;
notes/assumptions/13.md). -/
def floorDiv (a b : Int) : Int := Int.fdiv a b

/-- The value DIV leaves in `ACC`: the floored quotient, and `ACC` itself for the divisor 0
(42_arithmetic.md R100, R101). -/
def divideOrKeep (acc d : Int) : Int := if d = 0 then acc else floorDiv acc d

/-- ADDI: `register := register + operand` (42_arithmetic.md R94). -/
def execAddi (a : Int) (s : State) : Result := accFromImmediate (fun acc v => acc + v) a s

/-- SUBI: `register := register - operand` (42_arithmetic.md R95). -/
def execSubi (a : Int) (s : State) : Result := accFromImmediate (fun acc v => acc - v) a s

/-- ADD: `register := register + memory[operand]` (42_arithmetic.md R96). -/
def execAdd (a : Int) (s : State) : Result := accFromCell (fun acc v => acc + v) a s

/-- SUB: `register := register - memory[operand]` (42_arithmetic.md R97). -/
def execSub (a : Int) (s : State) : Result := accFromCell (fun acc v => acc - v) a s

/-- MUL: `register := register * memory[operand]` (42_arithmetic.md R98). Whether 52 is an instruction at all is the
decoder's question. -/
def execMul (a : Int) (s : State) : Result := accFromCell (fun acc v => acc * v) a s

/-- DIV: `register := floor(register / memory[operand])`, and unchanged if the divisor is 0 (42_arithmetic.md R101).
Whether 53 is an instruction at all is the decoder's question. -/
def execDiv (a : Int) (s : State) : Result := accFromCell divideOrKeep a s

end Sys2Proof.Machine
end

