-- ==== Sys2Proof/Machine/Flags.lean ====
section
/-! DEFINITION. The machine has no flags and no condition codes: no instruction writes one, and the branches test `ACC`
itself when they execute (10_state.md R29). These are those two tests. -/

namespace Sys2Proof.Machine

/-- The test of JPOS: `ACC > 0`, strictly (43_branch.md R103). -/
def accPositive (s : State) : Bool := decide (0 < s.acc)

/-- The test of JZERO: `ACC == 0` (43_branch.md R104). -/
def accZero (s : State) : Bool := decide (s.acc = 0)

end Sys2Proof.Machine
end

