-- ==== Sys2Proof/Machine/Branch.lean ====
section
/-! DEFINITION. The branch instructions (43_branch.md). -/

namespace Sys2Proof.Machine

/-- JPOS: `PC := operand` if `register > 0`, else `PC += 2` (43_branch.md R103). -/
def execJpos (a : Int) (s : State) : Result := branchIf (accPositive s) a s

/-- JZERO: `PC := operand` if `register == 0`, else `PC += 2` (43_branch.md R104). -/
def execJzero (a : Int) (s : State) : Result := branchIf (accZero s) a s

end Sys2Proof.Machine
end

