-- ==== Sys2Proof/Machine/DataTransfer.lean ====
section
/-! DEFINITION. The data transfer instructions (41_data_transfer.md). -/

namespace Sys2Proof.Machine

/-- STORE: `memory[operand] := register` (41_data_transfer.md R90). -/
def execStore (a : Int) (s : State) : Result := cellFromValue s.acc a s

/-- LOAD: `register := memory[operand]` (41_data_transfer.md R91). -/
def execLoad (a : Int) (s : State) : Result := accFromCell (fun _ v => v) a s

end Sys2Proof.Machine
end

