-- ==== Sys2Proof/Machine/Stop.lean ====
section
/-! DEFINITION. The stop family: STOP (40_cycle.md R83). The invalid opcodes halt in the step itself (R84). -/

namespace Sys2Proof.Machine

/-- STOP: the core halts; `PC`, `ACC` and memory are unchanged (40_cycle.md R83). -/
def execStop (s : State) : Result := haltCore s

end Sys2Proof.Machine
end

