-- ==== Sys2Proof/Machine/Dispatch.lean ====
section
/-! DEFINITION. The dispatch of 40_cycle.md R82: one arm per instruction. -/

namespace Sys2Proof.Machine

/-- The effect of an instruction, once the common prefix of the step has run (00_scope.md R15). -/
def exec (i : Instr) (s : State) : Host.Outcome State Fault Refusal :=
  match i with
  | .stop => Sys2Proof.Machine.execStop s
  | .addi a => Sys2Proof.Machine.execAddi a s
  | .subi a => Sys2Proof.Machine.execSubi a s
  | .add a => Sys2Proof.Machine.execAdd a s
  | .sub a => Sys2Proof.Machine.execSub a s
  | .mul a => Sys2Proof.Machine.execMul a s
  | .div a => Sys2Proof.Machine.execDiv a s
  | .jpos a => Sys2Proof.Machine.execJpos a s
  | .jzero a => Sys2Proof.Machine.execJzero a s
  | .store a => Sys2Proof.Machine.execStore a s
  | .load a => Sys2Proof.Machine.execLoad a s

end Sys2Proof.Machine
end

