-- ==== Sys2Proof/Machine/Fetch.lean ====
section
/-! DEFINITION. Fetching: from the program counter to an instruction, an invalid opcode, or an out-of-range fetch
(40_cycle.md R79 to R81); and placing an instruction where the next fetch reads it. -/

namespace Sys2Proof.Machine

/-- The existing cells of the instruction at an index: the opcode cell and, where there is one, the cell after it
(20_memory.md R38). -/
def Memory.cellsFrom (m : Memory) (i : Int) : List Cell :=
  match m.cell? i with
  | none => []
  | some opcodeCell => opcodeCell :: (m.cell? (i + 1)).toList

/-- What a fetch finds. -/
inductive Fetched where
  /-- An instruction the configuration executes. -/
  | instr (i : Instr)
  /-- An opcode-cell value outside the valid set (40_cycle.md R84). -/
  | invalid (op : Int)
  /-- The opcode or the operand cell does not exist (40_cycle.md R79, R81). -/
  | outOfBounds (kind : AccessKind) (index : Int)
  deriving DecidableEq, Repr

/-- Opcode fetch, halt check and operand fetch in their order (40_cycle.md R79, R80, R81, 60_exceptions.md R135). The
operand cell decides nothing for STOP and the invalid opcodes. -/
def fetch (s : State) : Fetched :=
  match decodeCells s.cfg (s.mem.cellsFrom s.pc) with
  | .instr i _ => .instr i
  | .noOpcodeCell => .outOfBounds .fetchOpcode s.pc
  | .invalidOpcode op => .invalid op
  | .noOperandCell => .outOfBounds .fetchOperand (s.pc + 1)

/-- Where an instruction can be placed for the next fetch: the program counter where its two cells exist, else 0. -/
def placeAt (pc : Int) : Int := if 0 ≤ pc ∧ pc < 99 then pc else 0

/-- The configuration changed no more than an opcode needs to be valid: MUL needs the extended dialect, DIV also
`DIV_IN_VALID_SET` (30_encoding.md R62; notes/assumptions/10.md). -/
def enableOpcode (cfg : Config) (op : Int) : Config :=
  { cfg with extended := cfg.extended || op == 52 || op == 53, divInValidSet := cfg.divInValidSet || op == 53 }

/-- The state with two integers placed as the next instruction's cells, in a machine that executes that opcode, ready
to run (notes/assumptions/10.md). -/
def placeInstruction (s : State) (op a : Int) : State :=
  { acc := s.acc
    pc := placeAt s.pc
    status := .running
    mem := (s.mem.poke (placeAt s.pc).toNat (.num op)).poke ((placeAt s.pc).toNat + 1) (.num a)
    cfg := enableOpcode s.cfg op }

end Sys2Proof.Machine
end

