-- ==== Sys2Proof/Machine/Step.lean ====
section
/-! DEFINITION. One step of the core (40_cycle.md R86). -/

namespace Sys2Proof.Machine

/-- One step: the status check (40_cycle.md R78), the fetch with its halt check (R79 to R81), the dispatch (R82). -/
def step (s : State) : Host.Outcome State Fault Refusal :=
  match s.status with
  | .halted => .next s
  | .faulted _ _ => .next s
  | .running =>
    match fetch s with
    | .instr i => exec i s
    | .invalid _ => haltCore s
    | .outOfBounds kind index => raiseOutOfBounds kind index s

/-- The state with an opcode-table word placed where the next step fetches it, its operand cell 0
(notes/assumptions/10.md). -/
def State.withFetchWord (s : State) (_nbits w : Nat) : State := placeInstruction s (w : Int) 0

end Sys2Proof.Machine
end

