-- ==== Sys2Proof/Machine/HostInterface.lean ====
section
/-! DEFINITION. The interactive runner's commands, as transactions between steps (45_testbench.md R108 to R117). -/

namespace Sys2Proof.Machine

/-! ### Programs (10_state.md R22, 30_encoding.md R72) -/

/-- A sparse mapping from cell index, in its decimal spelling, to token. -/
abbrev Mapping := List (Text × Token)

/-- The raw cell a token is entered as. -/
def tokenCell : Token → Cell
  | .num n => .num n
  | .text s => .text s

/-- The index a key spells: the decimal spelling of an integer from 0 to 99, without sign or leading zero
(45_testbench.md R109; notes/assumptions/7.md). -/
def indexKey? : Text → Option Nat
  | [c] => if isDigitChar c then some (digitValue c) else none
  | [c, d] =>
    if isDigitChar c && isDigitChar d && c.toNat != 48 then some (10 * digitValue c + digitValue d) else none
  | _ => none

/-- The mapping with its keys read as indices; none if some key is no index or stands twice
(45_testbench.md R109, R129; notes/assumptions/7.md). -/
def resolveKeys : Mapping → Option (List (Nat × Token))
  | [] => some []
  | e :: rest =>
    match indexKey? e.1, resolveKeys rest with
    | some i, some entries => if entries.any (fun x => x.1 == i) then none else some ((i, e.2) :: entries)
    | _, _ => none

/-- The memory a program describes: its tokens in their cells, every other cell Empty; none if the program is refused
(45_testbench.md R109). -/
def expandProgram (p : Mapping) : Option Memory :=
  (resolveKeys p).map fun entries => entries.foldl (fun m e => m.poke e.1 (tokenCell e.2)) []

/-! ### The runner -/

/-- The core with the runner's own state, which is not core state (10_state.md R31). -/
structure Runner where
  /-- The core the runner drives. -/
  core : State
  /-- The host-side flag of 45_testbench.md R115. -/
  haltRequested : Bool
  /-- A `Run` has started and not returned (45_testbench.md R117). -/
  runInProgress : Bool
  deriving DecidableEq, Repr

/-- The host's commands (45_testbench.md R108). -/
inductive Command where
  | load (program : Mapping)
  | editCell (i : Int) (content : Cell)
  | setPc (v : Int)
  | setAcc (v : Int)
  | reset
  | step
  | run
  | requestHalt
  | observe
  deriving DecidableEq, Repr

/-- The state after one step. A step never ends otherwise (`step_answers_next`, 40_cycle.md R88). -/
def advanceCore (s : State) : State :=
  match step s with
  | .next t => t
  | .fault r => nomatch r
  | .refused _ => s

/-- `Load(program)`: all cells replaced, nothing else touched; refused as a whole for a bad key
(45_testbench.md R109). -/
def Runner.load (p : Mapping) (r : Runner) : Host.Outcome Runner Fault Refusal :=
  match expandProgram p with
  | none => .refused .badProgramKey
  | some m => .next { r with core := r.core.setMem m }

/-- `EditCell(i, token)`: one raw cell replaced; refused where there is no such cell (45_testbench.md R110). -/
def Runner.editCell (i : Int) (content : Cell) (r : Runner) : Host.Outcome Runner Fault Refusal :=
  if inRange i then .next { r with core := r.core.setMem (r.core.mem.poke i.toNat content) }
  else .refused (.noSuchCell i)

/-- `Run` starts: the halt request is cleared and the loop of 45_testbench.md R114 begins. -/
def Runner.startRun (r : Runner) : Runner := { r with haltRequested := false, runInProgress := true }

/-- One iteration of the loop of `Run` (45_testbench.md R114): return on a halt request (R115) or when the status is
not Running, else one step. A runner without a `Run` in progress waits. -/
def Runner.tick (r : Runner) : Runner :=
  if !r.runInProgress then r
  else if r.haltRequested then { r with runInProgress := false }
  else if r.core.status ≠ .running then { r with runInProgress := false }
  else { r with core := advanceCore r.core }

/-- Some iterations of the loop of `Run`. -/
def Runner.ticks : Nat → Runner → Runner
  | 0, r => r
  | n + 1, r => Runner.ticks n r.tick

/-- A command while no `Run` is in progress (45_testbench.md R108 to R116). `Observe` changes nothing; what it returns
is `State.observe`. -/
def Runner.idleCommand (c : Command) (r : Runner) : Host.Outcome Runner Fault Refusal :=
  match c with
  | .load p => r.load p
  | .editCell i content => r.editCell i content
  | .setPc v => .next { r with core := r.core.setPc v }
  | .setAcc v => .next { r with core := r.core.setAcc v }
  | .reset => .next { r with core := r.core.resetAction }
  | .step => .next { r with core := advanceCore r.core }
  | .run => .next r.startRun
  | .requestHalt => .next { r with haltRequested := true }
  | .observe => .next r

/-- A command between two steps: while a `Run` is in progress only `RequestHalt` is accepted
(45_testbench.md R117; notes/assumptions/8.md). -/
def Runner.command (c : Command) (r : Runner) : Host.Outcome Runner Fault Refusal :=
  if r.runInProgress ∧ c ≠ .requestHalt then .refused .runInProgress else r.idleCommand c

/-- The runner of a core that was just constructed (70_reset_and_hazards.md R151). -/
def Runner.start : Runner := { core := State.reset, haltRequested := false, runInProgress := false }

/-! ### Observation -/

/-- What `Observe` returns (45_testbench.md R116). -/
structure Observation where
  /-- The raw cells `M[0..99]`. -/
  cells : List Cell
  /-- Their coerced integers. -/
  values : List Int
  pc : Int
  acc : Int
  status : Status
  deriving DecidableEq, Repr

/-- The raw cells of a memory, index 0 to 99. -/
def Memory.cells (m : Memory) : List Cell := (List.range Config.memSize).map m.peek

/-- The coerced integers of a memory, index 0 to 99. -/
def Memory.values (cfg : Config) (m : Memory) : List Int := m.cells.map (coerce cfg)

/-- `Observe` (45_testbench.md R116). -/
def State.observe (s : State) : Observation :=
  { cells := s.mem.cells, values := s.mem.values s.cfg, pc := s.pc, acc := s.acc, status := s.status }

end Sys2Proof.Machine
end

