-- ==== Sys2Proof/Machine/Harness.lean ====
section
/-! DEFINITION. The test-bench harness, the grading engine (45_testbench.md R118 to R129). -/

namespace Sys2Proof.Machine

/-- A test case: partial mappings from index to value (45_testbench.md R118). -/
structure TestCase where
  before : Mapping
  after : Mapping
  deriving DecidableEq, Repr

/-- Every key of both mappings is an index from 0 to 99, and none stands twice in its mapping
(45_testbench.md R129; notes/assumptions/7.md). -/
def TestCase.wellFormed (c : TestCase) : Bool := (resolveKeys c.before).isSome && (resolveKeys c.after).isSome

/-- The entries of a mapping by index; a well-formed case has them. -/
def mappingEntries (p : Mapping) : List (Nat × Token) := (resolveKeys p).getD []

/-- Every cell as `Num` of its coerced value (45_testbench.md R119). -/
def Memory.coerced (cfg : Config) (m : Memory) : Memory :=
  (List.range Config.memSize).map fun i => (i, .num (coerce cfg (m.peek i)))

/-- Case step 1: the clone, a fresh machine over the coerced baseline (45_testbench.md R119). -/
def cloneMachine (cfg : Config) (baseline : Memory) : State :=
  { acc := 0, pc := 0, status := .running, mem := baseline.coerced cfg, cfg := cfg }

/-- Case step 2: the overrides, coerced (45_testbench.md R120). -/
def applyOverrides (entries : List (Nat × Token)) (s : State) : State :=
  entries.foldl (fun t e => t.setMem (t.mem.poke e.1 (.num (coerce t.cfg (tokenCell e.2))))) s

/-- Case step 3: at most `n` steps, stopping early when the status is not Running (45_testbench.md R121). -/
def runBudget : Nat → State → State
  | 0, s => s
  | n + 1, s => if s.status = .running then runBudget n (advanceCore s) else s

/-- How a case run ended (45_testbench.md R122). It is no part of the result. -/
inductive CaseEnd where
  | halted
  | faulted
  | stepBudgetExceeded
  deriving DecidableEq, Repr

/-- The end of a case run, read from its final status (45_testbench.md R122). -/
def caseEnd (s : State) : CaseEnd :=
  match s.status with
  | .running => .stepBudgetExceeded
  | .halted => .halted
  | .faulted _ _ => .faulted

/-- Case step 4: every named cell equals its expected value, both coerced; nothing else is compared
(45_testbench.md R123). -/
def casePasses (expected : List (Nat × Token)) (s : State) : Bool :=
  expected.all fun e => coerce s.cfg (s.mem.peek e.1) == coerce s.cfg (tokenCell e.2)

/-- The Grading Result of a case (45_testbench.md R124). -/
structure GradingResult where
  pass : Bool
  before : Mapping
  /-- The 100 coerced integers after the run. -/
  finalMemory : List Int
  deriving DecidableEq, Repr

/-- The final state of a case run: steps 1 to 3 (45_testbench.md R119 to R121). -/
def runCase (cfg : Config) (baseline : Memory) (before : Mapping) : State :=
  runBudget Config.stepBudget (applyOverrides (mappingEntries before) (cloneMachine cfg baseline))

/-- A case graded on its own fresh machine (45_testbench.md R119 to R124, R127). -/
def gradeCase (cfg : Config) (baseline : Memory) (c : TestCase) : GradingResult :=
  let final := runCase cfg baseline c.before
  { pass := casePasses (mappingEntries c.after) final
    before := c.before
    finalMemory := final.mem.values cfg }

/-- The score: `passes / total`, and none for an empty suite (45_testbench.md R125). -/
def score (results : List GradingResult) : Option Rat :=
  if results.isEmpty then none
  else some (mkRat (results.filter fun r => r.pass).length results.length)

/-- The arguments of the one `save(score, state)` call of a grading; the state is the pre-grading memory
(45_testbench.md R126; notes/assumptions/11.md). -/
structure SaveCall where
  score : Option Rat
  state : Memory
  deriving DecidableEq, Repr

/-- What a grading gives back and what it hands to the score collaborator (45_testbench.md R118, R126). -/
structure GradingReport where
  results : List GradingResult
  score : Option Rat
  save : SaveCall
  deriving DecidableEq, Repr

/-- `grade(baselineMemory, testSuite)`: every case on its own, then the score; a suite with an ill-formed case is
refused as a whole (45_testbench.md R118, R125, R126, R129). -/
def gradeSuite (cfg : Config) (baseline : Memory) (suite : List TestCase) : Host.Outcome GradingReport Fault Refusal :=
  if suite.all TestCase.wellFormed then
    let results := suite.map (gradeCase cfg baseline)
    .next { results := results, score := score results, save := { score := score results, state := baseline } }
  else .refused .illFormedSuite

/-- `gradeSuite` with the baseline given as a program mapping, expanded as Load expands it (45_testbench.md R118, R109). -/
def gradeProgram (cfg : Config) (program : Mapping) (suite : List TestCase) :
    Host.Outcome GradingReport Fault Refusal :=
  match expandProgram program with
  | none => .refused .badProgramKey
  | some baseline => gradeSuite cfg baseline suite

/-- The host loads a snapshot the collaborator's `load()` returned, as `Load` does; nothing happens where it returned
none (45_testbench.md R126). -/
def restoreSnapshot (snapshot : Option Memory) (s : State) : State :=
  match snapshot with
  | none => s
  | some m => s.setMem m

end Sys2Proof.Machine
end

