-- ==== Sys2Proof/Safety.lean ====
section
/-! DEFINITION. What claims about the machine are stated in: the invariants, an instruction standing at the program
counter, and the step transcribed from the spec's own pseudocode. -/

namespace Sys2Proof.Machine

/-- The structural invariant: memory in canonical form, configuration well formed. -/
abbrev State.Inv (s : State) : Prop := s.mem.wf ∧ s.cfg.wellFormed = true

/-- The status tells the truth about the state it stands in (60_exceptions.md R131, R132): a halted core stands at a
STOP or an invalid opcode, and a faulted one at the instruction whose access to the recorded index does not exist. -/
def State.StatusExplained (s : State) : Prop :=
  match s.status with
  | .running => True
  | .halted => ∃ op, s.memRead s.pc = some op ∧ (op = 0 ∨ op ∉ validSet s.cfg)
  | .faulted .fetchOpcode i => i = s.pc ∧ inRange i = false
  | .faulted .fetchOperand i =>
      s.pc = 99 ∧ i = 100 ∧ ∃ op, s.memRead 99 = some op ∧ op ∈ validSet s.cfg ∧ op ≠ 0
  | .faulted .dataRead i =>
      inRange i = false ∧ s.memRead (s.pc + 1) = some i ∧
        ∃ op, s.memRead s.pc = some op ∧ op ∈ validSet s.cfg ∧ op ∈ ([161, 50, 51, 52, 53] : List Int)
  | .faulted .dataWrite i => inRange i = false ∧ s.memRead (s.pc + 1) = some i ∧ s.memRead s.pc = some 160

/-- The common prefix of the step has run (00_scope.md R15): the core is Running, the opcode cell coerces to `op` and
the operand cell to `a`. -/
abbrev State.At (s : State) (op a : Int) : Prop :=
  s.status = .running ∧ s.memRead s.pc = some op ∧ s.memRead (s.pc + 1) = some a

/-- Two states agree but for status: what a fault and a halt leave. -/
abbrev State.SameButStatus (s t : State) : Prop := t = s.setStatus t.status

/-- Every raw cell reads in `t` as in `s`; an index that names no cell reads as no cell in both. -/
abbrev State.SameCells (s t : State) : Prop := ∀ j : Int, t.mem.cell? j = s.mem.cell? j

/-- The value of a cell in range, as the spec's pseudocode writes `MemRead(i, 1)` after its range check. -/
def State.valueAt (s : State) (i : Int) : Int := coerce s.cfg (s.mem.peek i.toNat)

/-- The step transcribed from the pseudocode of 40_cycle.md R86, its codes as numerals, without the decoder, the
dispatch and the meanings. -/
def State.pseudocodeStep (s : State) : State :=
  if s.status ≠ .running then s
  else if ¬ (0 ≤ s.pc ∧ s.pc < 100) then { s with status := .faulted .fetchOpcode s.pc }
  else
    let op := s.valueAt s.pc
    if op = 0 ∨ op ∉ validSet s.cfg then { s with status := .halted }
    else if ¬ (0 ≤ s.pc + 1 ∧ s.pc + 1 < 100) then { s with status := .faulted .fetchOperand (s.pc + 1) }
    else
      let a := s.valueAt (s.pc + 1)
      let reads := 0 ≤ a ∧ a < 100
      if op = 160 then
        if ¬ reads then { s with status := .faulted .dataWrite a }
        else { s with mem := s.mem.poke a.toNat (.num s.acc), pc := s.pc + 2 }
      else if op = 161 then
        if ¬ reads then { s with status := .faulted .dataRead a }
        else { s with acc := s.valueAt a, pc := s.pc + 2 }
      else if op = 44 then { s with acc := s.acc + a, pc := s.pc + 2 }
      else if op = 45 then { s with acc := s.acc - a, pc := s.pc + 2 }
      else if op = 50 then
        if ¬ reads then { s with status := .faulted .dataRead a }
        else { s with acc := s.acc + s.valueAt a, pc := s.pc + 2 }
      else if op = 51 then
        if ¬ reads then { s with status := .faulted .dataRead a }
        else { s with acc := s.acc - s.valueAt a, pc := s.pc + 2 }
      else if op = 52 then
        if ¬ reads then { s with status := .faulted .dataRead a }
        else { s with acc := s.acc * s.valueAt a, pc := s.pc + 2 }
      else if op = 53 then
        if ¬ reads then { s with status := .faulted .dataRead a }
        else if s.valueAt a ≠ 0 then { s with acc := floorDiv s.acc (s.valueAt a), pc := s.pc + 2 }
        else { s with pc := s.pc + 2 }
      else if op = 127 then { s with pc := if s.acc > 0 then a else s.pc + 2 }
      else { s with pc := if s.acc = 0 then a else s.pc + 2 }

/-- The state with every cell replaced by `Num` of its coerced value: the model of 10_state.md R36. -/
def State.coerced (s : State) : State := s.setMem (s.mem.coerced s.cfg)

/-- Some steps of the core. -/
def stepsOf : Nat → State → State
  | 0, s => s
  | n + 1, s => stepsOf n (advanceCore s)

end Sys2Proof.Machine
end

