-- ==== Sys2Proof/Certificates/Slice0/Obligations.lean ====
section
/-! DEFINITION. The statements for the provers, each from numbered rules of the spec. -/

open Sys2Proof Sys2Proof.Machine

/-! ### The instructions, one by one -/

/-- R83. STOP halts with nothing else changed, whatever spelling the opcode cell has, at index 99 too; the only fault is
an opcode fetch out of range, before STOP is known. -/
def Obligations.StopHaltsTheCore : Prop :=
  (∀ s : State, exec .stop s = .next { s with status := .halted }) ∧
  (∀ s : State, s.status = .running → s.memRead s.pc = some 0 → step s = exec .stop s) ∧
  (∀ s : State, s.status = .running → inRange s.pc = false →
    step s = .next { s with status := .faulted .fetchOpcode s.pc }) ∧
  (∀ cfg : Config, coerce cfg .empty = 0 ∧ coerce cfg (.num 0) = 0) ∧
  (∀ e d : Bool, ∀ c ∈ [Cell.text ['S', 'T', 'O', 'P'], .text ['s', 't', 'o', 'p'], .text ['0']],
    coerce (Config.canonical e d) c = 0) ∧
  (∀ (cfg : Config) (x : Text), lookupMnemonic cfg x = none → decimalLiteral? x = none → coerceOther x = 0 →
    coerce cfg (.text x) = 0)

/-- R94. ADDI adds its operand, never range-checked, and goes on to PC + 2. -/
def Obligations.AddiAddsTheImmediate : Prop :=
  ∀ (s : State) (a : Int),
    exec (.addi a) s = .next { s with acc := s.acc + a, pc := s.pc + 2 } ∧
    (s.At 44 a → step s = exec (.addi a) s)

/-- R95. SUBI subtracts its operand, never range-checked, and goes on to PC + 2. -/
def Obligations.SubiSubtractsTheImmediate : Prop :=
  ∀ (s : State) (a : Int),
    exec (.subi a) s = .next { s with acc := s.acc - a, pc := s.pc + 2 } ∧
    (s.At 45 a → step s = exec (.subi a) s)

/-- R96. ADD adds the cell its operand indexes and goes on to PC + 2; out of range it faults and ACC and PC stay. Its own
operand cell adds the operand, its own opcode cell adds 50, an empty cell adds 0. -/
def Obligations.AddAddsTheCell : Prop :=
  ∀ (s : State) (a : Int),
    (inRange a = true → exec (.add a) s = .next { s with acc := s.acc + s.valueAt a, pc := s.pc + 2 }) ∧
    (inRange a = false → exec (.add a) s = .next { s with status := .faulted .dataRead a }) ∧
    (s.At 50 a → step s = exec (.add a) s) ∧
    (s.At 50 a → a = s.pc + 1 → s.valueAt a = a) ∧
    (s.At 50 a → a = s.pc → s.valueAt a = 50) ∧
    (s.mem.cell? a = some .empty → s.valueAt a = 0) ∧
    (∀ (x : Text) (code : Int), s.mem.cell? a = some (.text x) → isBlank x = false →
      lookupMnemonic s.cfg x = some code → s.valueAt a = code)

/-- R97. SUB subtracts the cell its operand indexes and goes on to PC + 2; out of range it faults. A cell that holds
ACC's value gives 0, an empty cell leaves ACC. -/
def Obligations.SubSubtractsTheCell : Prop :=
  ∀ (s : State) (a : Int),
    (inRange a = true → exec (.sub a) s = .next { s with acc := s.acc - s.valueAt a, pc := s.pc + 2 }) ∧
    (inRange a = false → exec (.sub a) s = .next { s with status := .faulted .dataRead a }) ∧
    (s.At 51 a → step s = exec (.sub a) s) ∧
    (inRange a = true → s.valueAt a = s.acc → exec (.sub a) s = .next { s with acc := 0, pc := s.pc + 2 }) ∧
    (s.mem.cell? a = some .empty → exec (.sub a) s = .next { s with pc := s.pc + 2 })

/-- R98. MUL multiplies by the cell its operand indexes, exactly, and goes on to PC + 2; out of range it faults. It is
an instruction of the extended dialect only: in a base dialect 52 halts. -/
def Obligations.MulMultipliesByTheCell : Prop :=
  ∀ (s : State) (a : Int),
    (inRange a = true → exec (.mul a) s = .next { s with acc := s.acc * s.valueAt a, pc := s.pc + 2 }) ∧
    (inRange a = false → exec (.mul a) s = .next { s with status := .faulted .dataRead a }) ∧
    (s.cfg.extended = true → s.At 52 a → step s = exec (.mul a) s) ∧
    (s.cfg.extended = false → s.status = .running → s.memRead s.pc = some 52 →
      step s = .next { s with status := .halted }) ∧
    (s.mem.cell? a = some .empty → exec (.mul a) s = .next { s with acc := 0, pc := s.pc + 2 })

/-- R100, R101. DIV leaves the floored quotient, leaves ACC for the divisor 0 (an empty cell included), and goes on to
PC + 2; out of range it faults. 53 executes only when the dialect is extended and DIV_IN_VALID_SET holds, and halts in
every other configuration. -/
def Obligations.DivFloorsOrKeeps : Prop :=
  ∀ (s : State) (a : Int),
    (inRange a = true → s.valueAt a ≠ 0 →
      exec (.div a) s = .next { s with acc := ⌊(s.acc : Rat) / (s.valueAt a : Rat)⌋, pc := s.pc + 2 }) ∧
    (inRange a = true → s.valueAt a = 0 → exec (.div a) s = .next { s with pc := s.pc + 2 }) ∧
    (inRange a = false → exec (.div a) s = .next { s with status := .faulted .dataRead a }) ∧
    (s.cfg.extended = true → s.cfg.divInValidSet = true → s.At 53 a → step s = exec (.div a) s) ∧
    ((s.cfg.extended && s.cfg.divInValidSet) = false → s.status = .running → s.memRead s.pc = some 53 →
      step s = .next { s with status := .halted }) ∧
    (inRange a = true → s.valueAt a = s.acc → s.acc ≠ 0 →
      exec (.div a) s = .next { s with acc := 1, pc := s.pc + 2 }) ∧
    (inRange a = true → s.valueAt a = 1 → exec (.div a) s = .next { s with pc := s.pc + 2 }) ∧
    (inRange a = true → s.acc = 0 → exec (.div a) s = .next { s with pc := s.pc + 2 }) ∧
    (s.mem.cell? a = some .empty → s.valueAt a = 0)

/-- R103. JPOS goes to its operand if ACC is strictly positive, else to PC + 2; it changes nothing else and checks no
range, and with its own index as target it loops while ACC is positive. -/
def Obligations.JposBranchesOnPositive : Prop :=
  ∀ (s : State) (a : Int),
    (0 < s.acc → exec (.jpos a) s = .next { s with pc := a }) ∧
    (s.acc ≤ 0 → exec (.jpos a) s = .next { s with pc := s.pc + 2 }) ∧
    (s.At 127 a → step s = exec (.jpos a) s) ∧
    (s.At 127 s.pc → 0 < s.acc → step s = .next s)

/-- R104. JZERO goes to its operand if ACC is 0, else to PC + 2; it changes nothing else and checks no range, and with
its own index as target it loops while ACC is 0. -/
def Obligations.JzeroBranchesOnZero : Prop :=
  ∀ (s : State) (a : Int),
    (s.acc = 0 → exec (.jzero a) s = .next { s with pc := a }) ∧
    (s.acc ≠ 0 → exec (.jzero a) s = .next { s with pc := s.pc + 2 }) ∧
    (s.At 128 a → step s = exec (.jzero a) s) ∧
    (s.At 128 s.pc → s.acc = 0 → step s = .next s)

/-- R90. STORE makes the cell its operand indexes Num(ACC), whatever it held and whichever cell it is (its own cells
too), and goes on to PC + 2 with ACC, status and every other cell as they were; out of range nothing is written. -/
def Obligations.StoreWritesTheAccumulator : Prop :=
  ∀ (s : State) (a : Int),
    (inRange a = true → ∃ t, exec (.store a) s = .next t ∧
      t.mem.cell? (effectiveAddress a) = some (.num s.acc) ∧
      (∀ j : Int, j ≠ effectiveAddress a → t.mem.cell? j = s.mem.cell? j) ∧
      t.memRead (effectiveAddress a) = some s.acc ∧
      t.acc = s.acc ∧ t.pc = s.pc + 2 ∧ t.status = s.status ∧ t.cfg = s.cfg) ∧
    (inRange a = false → exec (.store a) s = .next { s with status := .faulted .dataWrite a }) ∧
    (s.At 160 a → step s = exec (.store a) s)

/-- R91. LOAD copies the coerced cell into ACC and goes on to PC + 2; out of range it faults with ACC and PC unchanged.
An empty cell gives 0, its own operand cell the operand, its own opcode cell 161, a mnemonic its opcode number, an
unrecognized text COERCE_OTHER. -/
def Obligations.LoadCopiesTheCell : Prop :=
  ∀ (s : State) (a : Int),
    (inRange a = true → exec (.load a) s = .next { s with acc := s.valueAt a, pc := s.pc + 2 }) ∧
    (inRange a = false → exec (.load a) s = .next { s with status := .faulted .dataRead a }) ∧
    (s.At 161 a → step s = exec (.load a) s) ∧
    (s.mem.cell? a = some .empty → s.valueAt a = 0) ∧
    (s.At 161 a → a = s.pc + 1 → s.valueAt a = a) ∧
    (s.At 161 a → a = s.pc → s.valueAt a = 161) ∧
    (∀ x : Text, s.mem.cell? a = some (.text x) → isBlank x = false →
      (∀ code, lookupMnemonic s.cfg x = some code → s.valueAt a = code) ∧
      (lookupMnemonic s.cfg x = none → decimalLiteral? x = none → s.valueAt a = coerceOther x))

/-- R99 (with C1). The quotient is the floor of the exact rational quotient, at every combination of signs. -/
def Obligations.DivisionRoundsTowardMinusInfinity : Prop :=
  (∀ a b : Int, b ≠ 0 → floorDiv a b = ⌊(a : Rat) / (b : Rat)⌋) ∧
  (∀ a b : Int, 0 < b → floorDiv a b * b ≤ a ∧ ∀ q : Int, q * b ≤ a → q ≤ floorDiv a b) ∧
  (∀ a b : Int, b < 0 → a ≤ floorDiv a b * b ∧ ∀ q : Int, a ≤ q * b → q ≤ floorDiv a b) ∧
  (floorDiv 7 2 = 3 ∧ floorDiv (-7) 2 = -4 ∧ floorDiv 7 (-2) = -4 ∧ floorDiv (-7) (-2) = 3 ∧
    floorDiv 6 (-3) = -2 ∧ floorDiv 0 5 = 0 ∧ floorDiv (-1) 3 = -1)

/-! ### Frames -/

/-- What LOAD, ADDI, SUBI, ADD, SUB, MUL and DIV leave alone: every cell of memory and the configuration always; the
status, unless the data access is out of range, and then ACC and PC. -/
def Obligations.AccumulatorInstructionsFrame : Prop :=
  ∀ (s t : State) (a : Int),
    (∀ i ∈ [Instr.addi a, .subi a], exec i s = .next t →
      s.SameCells t ∧ t.cfg = s.cfg ∧ t.status = s.status) ∧
    (∀ i ∈ [Instr.load a, .add a, .sub a, .mul a, .div a], exec i s = .next t →
      s.SameCells t ∧ t.cfg = s.cfg ∧ (inRange (effectiveAddress a) = true → t.status = s.status) ∧
        (inRange (effectiveAddress a) = false → t.acc = s.acc ∧ t.pc = s.pc))

/-- What JPOS, JZERO and STOP leave alone: ACC, every cell and the configuration; the branches also the status, STOP
also the program counter. -/
def Obligations.BranchAndStopFrame : Prop :=
  ∀ (s t : State) (a : Int),
    (∀ i ∈ [Instr.jpos a, .jzero a, .stop], exec i s = .next t →
      s.SameCells t ∧ t.acc = s.acc ∧ t.cfg = s.cfg) ∧
    (∀ i ∈ [Instr.jpos a, .jzero a], exec i s = .next t → t.status = s.status) ∧
    (exec .stop s = .next t → t.pc = s.pc)

/-- What STORE leaves alone: ACC, the configuration, and every cell but the one at the effective address; and where
there is no such cell, every cell and the program counter. -/
def Obligations.StoreFrame : Prop :=
  ∀ (s t : State) (a : Int), exec (.store a) s = .next t →
    t.acc = s.acc ∧ t.cfg = s.cfg ∧
    (∀ j : Int, j ≠ effectiveAddress a → t.mem.cell? j = s.mem.cell? j) ∧
    (inRange (effectiveAddress a) = true → t.status = s.status) ∧
    (inRange (effectiveAddress a) = false → s.SameCells t ∧ t.pc = s.pc)

/-! ### The step -/

/-- A running core whose cells from PC decode to an instruction takes exactly that instruction's step. -/
def Obligations.StepRunsTheDecodedInstruction : Prop :=
  ∀ (s : State) (i : Instr) (rest : List Cell), s.status = .running →
    decodeCells s.cfg (s.mem.cellsFrom s.pc) = .instr i rest → step s = exec i s

/-- A running core at the encoding of a well-formed instruction runs it: STOP needs the opcode cell alone, every other
instruction both cells. -/
def Obligations.StepRunsTheEncodedInstruction : Prop :=
  ∀ (s : State) (i : Instr), s.status = .running → i.wellFormed s.cfg = true →
    s.mem.cell? s.pc = some (.num i.opcode.code) →
    (∀ a, i.operand? = some a → s.mem.cell? (s.pc + 1) = some (.num a)) → step s = exec i s

/-- R78, R79. A step of a halted or faulted core changes nothing. On a running core an opcode fetch out of range faults
with PC recorded and writes nothing else; in range, the coerced cell at PC is the opcode the step takes: it halts on 0
and on an invalid value, and otherwise runs the instruction with that code. -/
def Obligations.StatusCheckThenOpcodeFetch : Prop :=
  (∀ s : State, s.status ≠ .running → step s = .next s) ∧
  (∀ s : State, s.status = .running → (s.pc < 0 ∨ 100 ≤ s.pc) →
    step s = .next { s with status := .faulted .fetchOpcode s.pc }) ∧
  (∀ s : State, 0 ≤ s.pc → s.pc < 100 → s.memRead s.pc = some (s.valueAt s.pc) ∧
    (s.status = .running →
      ((s.valueAt s.pc = 0 ∨ s.valueAt s.pc ∉ validSet s.cfg) → step s = .next { s with status := .halted }) ∧
      (∀ a, s.valueAt s.pc ≠ 0 → s.valueAt s.pc ∈ validSet s.cfg → s.memRead (s.pc + 1) = some a →
        ∃ i, i.opcode.code = s.valueAt s.pc ∧ i.operand? = some a ∧ step s = exec i s)))

/-- R80. A running core at opcode 0 or at an invalid opcode halts; PC, ACC and memory are unchanged, and no condition on
the operand cell is needed. -/
def Obligations.HaltCheckComesBeforeTheOperand : Prop :=
  ∀ (s : State) (op : Int), s.status = .running → s.memRead s.pc = some op → (op = 0 ∨ op ∉ validSet s.cfg) →
    step s = .next { s with status := .halted }

/-- R81. A valid opcode other than STOP without an operand cell faults, a branch that would not be taken included; it
happens at PC = 99 only, with index 100. Otherwise the operand is the coerced cell at PC + 1. -/
def Obligations.OperandFetchOutOfRangeFaults : Prop :=
  (∀ (s : State) (op : Int), s.status = .running → s.memRead s.pc = some op → op ≠ 0 → op ∈ validSet s.cfg →
    inRange (s.pc + 1) = false →
    s.pc = 99 ∧ step s = .next { s with status := .faulted .fetchOperand 100 }) ∧
  (∀ (s : State) (op a : Int), s.At op a → op ≠ 0 → op ∈ validSet s.cfg →
    ∃ i, fetch s = .instr i ∧ i.opcode.code = op ∧ i.operand? = some a)

/-- R135. Which outcome a step of a running core reports, each with its exact condition in the order of the checks. -/
def Obligations.StepOutcomePriority : Prop :=
  (∀ s : State, s.status ≠ .running → step s = .next s) ∧
  ∀ s t : State, s.status = .running → step s = .next t →
    (∀ i, t.status = .faulted .fetchOpcode i ↔ inRange s.pc = false ∧ i = s.pc) ∧
    (t.status = .halted ↔ ∃ op, s.memRead s.pc = some op ∧ (op = 0 ∨ op ∉ validSet s.cfg)) ∧
    (∀ i, t.status = .faulted .fetchOperand i ↔
      ∃ op, s.memRead s.pc = some op ∧ op ≠ 0 ∧ op ∈ validSet s.cfg ∧ inRange (s.pc + 1) = false ∧ i = s.pc + 1) ∧
    (∀ i, t.status = .faulted .dataRead i ↔
      ∃ op, s.At op i ∧ op ∈ validSet s.cfg ∧ op ∈ ([161, 50, 51, 52, 53] : List Int) ∧ inRange i = false) ∧
    (∀ i, t.status = .faulted .dataWrite i ↔ s.At 160 i ∧ inRange i = false)

/-- R88, R130. Every step of every state ends in a next state, and a step of a running core in exactly one of three
ways: still Running, Halted with only the status changed, or Faulted with only the status changed. -/
def Obligations.EveryStepAnswersANextState : Prop :=
  ∀ s : State, ∃ t, step s = .next t ∧
    (s.status = .running → t.status = .running ∨ t = { s with status := .halted } ∨
      ∃ kind i, t = { s with status := .faulted kind i })

/-- R86. The step is the spec's whole-step pseudocode, in every state. -/
def Obligations.StepIsThePseudocode : Prop :=
  ∀ s : State, step s = .next s.pseudocodeStep

/-- From R87. A step writes at most one of ACC and one cell, and writes PC only when it ends Running. -/
def Obligations.StepWritesAtMostOnePlace : Prop :=
  ∀ s t : State, step s = .next t →
    (t.acc = s.acc ∨ s.SameCells t) ∧
    (∀ j k : Int, t.mem.cell? j ≠ s.mem.cell? j → t.mem.cell? k ≠ s.mem.cell? k → j = k) ∧
    (t.status ≠ .running → t.pc = s.pc ∧ t.acc = s.acc ∧ s.SameCells t)

/-- From R41 and R23. A step changes a cell only by a STORE whose operand is that cell's index, and then the cell is
Num(ACC). -/
def Obligations.OnlyStoreChangesACell : Prop :=
  ∀ (s t : State) (j : Int), step s = .next t → t.mem.cell? j ≠ s.mem.cell? j →
    s.At 160 j ∧ t.mem.cell? j = some (.num s.acc)

/-- R26. PC starts at 0. A taken branch sets it to the branch target; every other step that ends Running sets it to
PC + 2; a step that halts or faults leaves it. -/
def Obligations.ProgramCounterRule : Prop :=
  (State.reset.pc = 0 ∧ ∀ s : State, s.resetAction.pc = 0) ∧
  ∀ s t : State, s.status = .running → step s = .next t →
    (∀ a, ((s.At 127 a ∧ 0 < s.acc) ∨ (s.At 128 a ∧ s.acc = 0)) → t.status = .running ∧ t.pc = a) ∧
    (t.status = .running → (∀ a, ¬ ((s.At 127 a ∧ 0 < s.acc) ∨ (s.At 128 a ∧ s.acc = 0))) → t.pc = s.pc + 2) ∧
    (t.status ≠ .running → t.pc = s.pc)

/-- R133, R136. A fault is precise: the access does not exist, only the status changed, and every later step does
nothing. -/
def Obligations.FaultIsPreciseAndSticky : Prop :=
  ∀ (s t : State) (kind : AccessKind) (i : Int), s.status = .running → step s = .next t →
    t.status = .faulted kind i →
    inRange i = false ∧ t = { s with status := .faulted kind i } ∧ ∀ n, stepsOf n t = t

/-- R105. A taken branch to a target out of range leaves PC there and the core Running, and the next step faults with
that PC recorded; so does PC + 2 from 98. -/
def Obligations.OutOfRangeTargetFaultsAtTheNextFetch : Prop :=
  (∀ (s : State) (a : Int), inRange a = false → ((s.At 127 a ∧ 0 < s.acc) ∨ (s.At 128 a ∧ s.acc = 0)) →
    step s = .next { s with pc := a } ∧
    step { s with pc := a } = .next { s with pc := a, status := .faulted .fetchOpcode a }) ∧
  (∀ s t : State, s.status = .running → s.pc = 98 → step s = .next t → t.pc = 100 → t.status = .running →
    step t = .next { t with status := .faulted .fetchOpcode 100 })

/-- R156. A STORE is seen by the next fetch of the cell it wrote, the very next step's too: as its opcode, whether that
now halts or runs another instruction, and as its operand. -/
def Obligations.StoredCellIsFetchedNext : Prop :=
  ∀ (s t : State) (a : Int), s.At 160 a → inRange a = true → step s = .next t →
    t.memRead a = some s.acc ∧
    (a = t.pc → (s.acc = 0 ∨ s.acc ∉ validSet s.cfg) → step t = .next { t with status := .halted }) ∧
    (∀ (o : Opcode) (b : Int), a = t.pc → o ≠ .stop → s.acc = o.code → o.code ∈ validSet s.cfg →
      s.memRead (t.pc + 1) = some b → step t = exec (o.build b) t) ∧
    (∀ o : Opcode, a = t.pc + 1 → o ≠ .stop → o.code ∈ validSet s.cfg → s.memRead t.pc = some o.code →
      step t = exec (o.build s.acc) t)

/-- R160 (with R103 and R104). A branch to its own index whose condition holds runs for ever: every number of steps
leaves the very same running state. -/
def Obligations.BranchToItselfNeverEnds : Prop :=
  ∀ s : State, ((s.At 127 s.pc ∧ 0 < s.acc) ∨ (s.At 128 s.pc ∧ s.acc = 0)) →
    ∀ n, Sys2Proof.core.run n s = .next s ∧ s.status = .running

/-! ### Invariants -/

/-- Every step keeps the structural invariant: memory in canonical form, configuration well formed. -/
def Obligations.StepKeepsTheInvariant : Prop :=
  ∀ s t : State, s.Inv → step s = .next t → t.Inv

/-- The reset state meets the structural invariant and its status is explained. -/
def Obligations.ResetMeetsTheInvariants : Prop :=
  State.reset.Inv ∧ State.reset.StatusExplained

/-- R131, R132. Every step keeps the status truthful: a halted core stands at a STOP or an invalid opcode, a faulted one
at the instruction whose recorded access does not exist. -/
def Obligations.StepKeepsTheStatusExplained : Prop :=
  ∀ s t : State, s.StatusExplained → step s = .next t → t.StatusExplained

/-- R31. No step changes the configuration. -/
def Obligations.StepKeepsTheConfiguration : Prop :=
  ∀ s t : State, step s = .next t → t.cfg = s.cfg

/-- R36. Coercing every cell once gives an exact model: a step of the coerced state is the coerced step. -/
def Obligations.CoercedMemoryIsExact : Prop :=
  (∀ s t : State, step s = .next t → step s.coerced = .next t.coerced) ∧
  (∀ (s : State) (i : Int), s.coerced.memRead i = s.memRead i)

/-! ### Memory and reset -/

/-- R13, R23. MemWrite makes the whole cell Num(v) and leaves every other cell; both primitives exist exactly for 0 to
99; MemRead coerces the raw cell and changes nothing. -/
def Obligations.MemoryPrimitives : Prop :=
  (∀ (s : State) (i v : Int), 0 ≤ i ∧ i < 100 → ∃ t, s.memWrite i v = some t ∧ t.mem.cell? i = some (.num v) ∧
    t.memRead i = some v ∧ (∀ j : Int, j ≠ i → t.mem.cell? j = s.mem.cell? j) ∧
    t.acc = s.acc ∧ t.pc = s.pc ∧ t.status = s.status) ∧
  (∀ (s : State) (i v : Int), ¬ (0 ≤ i ∧ i < 100) → s.memWrite i v = none ∧ s.memRead i = none) ∧
  (∀ (s : State) (i : Int) (c : Cell), s.mem.cell? i = some c → s.memRead i = some (coerce s.cfg c))

/-- R34, R149. What reset leaves: PC 0, ACC 0, status Running, memory untouched. The first step then takes its opcode
from cell 0: it halts on 0 and on an invalid value there, and otherwise runs the instruction with that code and the
operand in cell 1. The reset state has those values. -/
def Obligations.ResetValues : Prop :=
  (∀ s : State, s.resetAction.pc = 0 ∧ s.resetAction.acc = 0 ∧ s.resetAction.status = .running ∧
    s.SameCells s.resetAction ∧ s.resetAction.cfg = s.cfg) ∧
  (State.reset.pc = 0 ∧ State.reset.acc = 0 ∧ State.reset.status = .running) ∧
  (∀ s : State, s.resetAction.mem.cellsFrom s.resetAction.pc = s.mem.cellsFrom 0) ∧
  (∀ (s : State) (op : Int), s.memRead 0 = some op →
    ((op = 0 ∨ op ∉ validSet s.cfg) → step s.resetAction = .next { s.resetAction with status := .halted }) ∧
    (op ≠ 0 → op ∈ validSet s.cfg →
      ∃ i, i.opcode.code = op ∧ i.operand? = s.memRead 1 ∧ step s.resetAction = exec i s.resetAction))

/-! ### Encoding and coercion -/

/-- Decoding the encoding of a well-formed instruction gives it back, with every integer operand, and leaves what
follows. -/
def Obligations.DecodeOfEncode : Prop :=
  ∀ (cfg : Config) (i : Instr) (rest : List Cell), i.wellFormed cfg = true →
    decodeCells cfg (encode i ++ rest) = .instr i rest

/-- What the decoder accepts is well formed, and its cells, coerced, are its encoding: no other cells mean it. -/
def Obligations.EncodeOfDecode : Prop :=
  ∀ (cfg : Config) (cells rest : List Cell) (i : Instr), decodeCells cfg cells = .instr i rest →
    i.wellFormed cfg = true ∧
    ∃ used, cells = used ++ rest ∧ encode i = used.map fun c => .num (coerce cfg c)

/-- R77. The mnemonic of an instruction in any case, its decimal code, and the integer itself decode alike; the operand
may be a decimal literal or an integer. -/
def Obligations.SpellingsDecodeAlike : Prop :=
  ∀ (e d : Bool) (i : Instr) (rest : List Cell), i.wellFormed (Config.canonical e d) = true →
    (∀ x : Text, asciiLower x = i.opcode.key →
      decodeCells (Config.canonical e d) (.text x :: (spell i).tail ++ rest) = .instr i rest) ∧
    decodeCells (Config.canonical e d) (spell i ++ rest) = .instr i rest ∧
    decodeCells (Config.canonical e d) (spellDecimal i ++ rest) = .instr i rest ∧
    decodeCells (Config.canonical e d) (encode i ++ rest) = .instr i rest

/-- Words written out from the opcode map: one of every family decodes to its instruction. -/
def Obligations.WordsOfTheOpcodeMap : Prop :=
  decodeCells (Config.canonical false false) [.num 0] = .instr .stop [] ∧
  decodeCells (Config.canonical false false) [.num 161, .num 99] = .instr (.load 99) [] ∧
  decodeCells (Config.canonical false false) [.num 44, .num (-8)] = .instr (.addi (-8)) [] ∧
  decodeCells (Config.canonical true false) [.num 52, .num 31] = .instr (.mul 31) [] ∧
  decodeCells (Config.canonical false false) [.num 127, .num 2] = .instr (.jpos 2) []

/-- R62, R68. The integers outside the valid set are exactly those the rule lists, and a running core at one halts. -/
def Obligations.InvalidOpcodesAreTheListedOnes : Prop :=
  (∀ (cfg : Config) (op : Int), op ∉ validSet cfg ↔
    op < 0 ∨ (1 ≤ op ∧ op ≤ 43) ∨ (46 ≤ op ∧ op ≤ 49) ∨ (54 ≤ op ∧ op ≤ 126) ∨ (129 ≤ op ∧ op ≤ 159) ∨ 162 ≤ op ∨
      (cfg.extended = false ∧ (op = 52 ∨ op = 53)) ∨
      (cfg.extended = true ∧ cfg.divInValidSet = false ∧ op = 53)) ∧
  (∀ (s : State) (op : Int), s.status = .running → s.memRead s.pc = some op → op ∉ validSet s.cfg →
    step s = .next { s with status := .halted })

/-- R54, R64, R70. Decoding is total and exact: an integer selects an opcode just when it equals its code and is in the
valid set, and any two cells decode to an instruction or to a named invalid opcode. -/
def Obligations.DecodingIsTotalAndExact : Prop :=
  (∀ (cfg : Config) (op : Int) (o : Opcode), opcodeOf cfg op = some o ↔ op = o.code ∧ op ∈ validSet cfg) ∧
  (∀ (cfg : Config) (op : Int), opcodeOf cfg op = none ↔ op ∉ validSet cfg) ∧
  (∀ (cfg : Config) (c d : Cell) (rest : List Cell),
    (coerce cfg c ∈ validSet cfg ∧ ∃ i r, decodeCells cfg (c :: d :: rest) = .instr i r ∧ i.opcode.code = coerce cfg c)
    ∨ (coerce cfg c ∉ validSet cfg ∧ decodeCells cfg (c :: d :: rest) = .invalidOpcode (coerce cfg c)))

/-- R63. Resolve answers the coerced integer exactly when the valid set holds it, whatever the spelling, and resolving
the answer again gives it again. -/
def Obligations.ResolveChecksTheValueAlone : Prop :=
  (∀ (cfg : Config) (c : Cell) (v : Int), resolve cfg c = some v ↔ v = coerce cfg c ∧ v ∈ validSet cfg) ∧
  (∀ (cfg : Config) (c : Cell) (v : Int), resolve cfg c = some v → resolve cfg (.num v) = some v) ∧
  (∀ (cfg : Config) (c d : Cell), coerce cfg c = coerce cfg d → resolve cfg c = resolve cfg d) ∧
  (∀ (cfg : Config) (x y : Text), asciiLower x = asciiLower y → (lookupMnemonic cfg x).isSome = true →
    resolve cfg (.text x) = resolve cfg (.text y))

/-- R58. asciiLower maps A to Z to a to z, character by character, and keeps every other character. Mnemonic lookup
ignores ASCII case, trims nothing and takes no prefix: two texts of equal lowering have the same entry, and without
digits the same coerced value. -/
def Obligations.MnemonicLookupIgnoresCase : Prop :=
  (asciiLower ['A', 'B', 'C', 'D', 'E', 'F', 'G', 'H', 'I', 'J', 'K', 'L', 'M', 'N', 'O', 'P', 'Q', 'R', 'S', 'T', 'U',
      'V', 'W', 'X', 'Y', 'Z'] =
    ['a', 'b', 'c', 'd', 'e', 'f', 'g', 'h', 'i', 'j', 'k', 'l', 'm', 'n', 'o', 'p', 'q', 'r', 's', 't', 'u',
      'v', 'w', 'x', 'y', 'z']) ∧
  (∀ x : Text, (∀ c ∈ x, ¬ ('A' ≤ c ∧ c ≤ 'Z')) → asciiLower x = x) ∧
  (∀ x y : Text, asciiLower (x ++ y) = asciiLower x ++ asciiLower y) ∧
  (∀ x : Text, (asciiLower x).length = x.length) ∧
  (∀ (cfg : Config) (x y : Text), asciiLower x = asciiLower y → lookupMnemonic cfg x = lookupMnemonic cfg y) ∧
  (∀ (cfg : Config) (x y : Text), asciiLower x = asciiLower y → hasDigit x = false →
    coerce cfg (.text x) = coerce cfg (.text y)) ∧
  (∀ (cfg : Config) (x : Text) (code : Int), lookupMnemonic cfg x = some code → (asciiLower x, code) ∈ cfg.mnemonics) ∧
  (∀ e d : Bool,
    coerce (Config.canonical e d) (.text ['S', 'T', 'O', 'R', 'E']) = 160 ∧
    coerce (Config.canonical e d) (.text ['s', 't', 'o', 'r', 'e']) = 160 ∧
    lookupMnemonic (Config.canonical e d) [' ', 'l', 'o', 'a', 'd'] = none ∧
    lookupMnemonic (Config.canonical e d) ['l', 'o', 'a', 'd', 's'] = none)

/-- R59. A text is a decimal literal exactly when it is blanks, an optional sign, one or more digits, blanks; its value
is the signed number the digits spell. -/
def Obligations.DecimalLiteralGrammar : Prop :=
  ∀ (x : Text) (n : Int), decimalLiteral? x = some n ↔
    ∃ front sign digits back : Text, x = front ++ sign ++ digits ++ back ∧
      isBlank front = true ∧ isBlank back = true ∧ digits ≠ [] ∧ digits.all isDigitChar = true ∧
      ((sign = [] ∨ sign = ['+']) ∧ n = (digitsValue digits : Int) ∨
        sign = ['-'] ∧ n = -(digitsValue digits : Int))

/-- R57, R60. The order of coercion: Empty and blank texts give 0, a number itself, then mnemonic, then literal, then
COERCE_OTHER, which is 0 on every text without a decimal digit. -/
def Obligations.CoercionOrder : Prop :=
  ∀ cfg : Config,
    coerce cfg .empty = 0 ∧ (∀ n, coerce cfg (.num n) = n) ∧
    (∀ x : Text, (∀ c ∈ x, c = ' ' ∨ c = '\t') → coerce cfg (.text x) = 0) ∧
    (∀ (x : Text) (code : Int), isBlank x = false → lookupMnemonic cfg x = some code → coerce cfg (.text x) = code) ∧
    (∀ (x : Text) (n : Int), isBlank x = false → lookupMnemonic cfg x = none → decimalLiteral? x = some n →
      coerce cfg (.text x) = n) ∧
    (∀ x : Text, isBlank x = false → lookupMnemonic cfg x = none → decimalLiteral? x = none →
      coerce cfg (.text x) = coerceOther x) ∧
    (∀ x : Text, (∀ c ∈ x, ¬ ('0' ≤ c ∧ c ≤ '9')) → coerceOther x = 0)

/-- R61. The canonical mnemonic table of each dialect is the listed one, key by key: nine keys in a base dialect, mul and
div besides in the extended one, whatever DIV_IN_VALID_SET is, and no others. -/
def Obligations.CanonicalMnemonicTable : Prop :=
  (∀ (d : Bool) (x : Text) (code : Int), lookupMnemonic (Config.canonical true d) x = some code ↔
    (asciiLower x, code) ∈ ([(['s', 't', 'o', 'p'], 0), (['a', 'd', 'd', 'i'], 44), (['s', 'u', 'b', 'i'], 45),
      (['a', 'd', 'd'], 50), (['s', 'u', 'b'], 51), (['m', 'u', 'l'], 52), (['d', 'i', 'v'], 53),
      (['j', 'p', 'o', 's'], 127), (['j', 'z', 'e', 'r', 'o'], 128), (['s', 't', 'o', 'r', 'e'], 160),
      (['l', 'o', 'a', 'd'], 161)] : List (Text × Int))) ∧
  (∀ (d : Bool) (x : Text) (code : Int), lookupMnemonic (Config.canonical false d) x = some code ↔
    (asciiLower x, code) ∈ ([(['s', 't', 'o', 'p'], 0), (['a', 'd', 'd', 'i'], 44), (['s', 'u', 'b', 'i'], 45),
      (['a', 'd', 'd'], 50), (['s', 'u', 'b'], 51), (['j', 'p', 'o', 's'], 127), (['j', 'z', 'e', 'r', 'o'], 128),
      (['s', 't', 'o', 'r', 'e'], 160), (['l', 'o', 'a', 'd'], 161)] : List (Text × Int))) ∧
  (∀ d : Bool, coerce (Config.canonical false d) (.text ['M', 'U', 'L']) = 0 ∧
    coerce (Config.canonical false d) (.text ['D', 'I', 'V']) = 0 ∧
    coerce (Config.canonical true d) (.text ['M', 'U', 'L']) = 52 ∧
    coerce (Config.canonical true d) (.text ['D', 'I', 'V']) = 53)

/-! ### The interactive runner -/

/-- R109. Load of a program with keys 0 to 99 puts each token in its cell and Empty in every other, and touches nothing
else; a key that spells no integer from 0 to 99 refuses the whole program. -/
def Obligations.LoadReplacesEveryCell : Prop :=
  (∀ (r : Runner) (entries : List (Nat × Token)), r.runInProgress = false →
    (∀ e ∈ entries, e.1 < 100) → entries.Pairwise (fun x y => x.1 ≠ y.1) →
    ∃ q, r.command (.load (entries.map fun e => (Nat.toDigits 10 e.1, e.2))) = .next q ∧
      q.core.acc = r.core.acc ∧ q.core.pc = r.core.pc ∧ q.core.status = r.core.status ∧
      (∀ e ∈ entries, q.core.mem.cell? (e.1 : Int) = some (tokenCell e.2)) ∧
      (∀ i : Int, 0 ≤ i → i < 100 → (∀ e ∈ entries, (e.1 : Int) ≠ i) → q.core.mem.cell? i = some .empty)) ∧
  (∀ (r : Runner) (p : Mapping), r.runInProgress = false →
    (∃ e ∈ p, ∀ n, decimalLiteral? e.1 = some n → n < 0 ∨ 100 ≤ n) →
    r.command (.load p) = .refused .badProgramKey)

/-- R110, R111. EditCell replaces one raw cell and is refused outside 0 to 99; SetPC and SetACC overwrite PC or ACC; none
of them touches the status. -/
def Obligations.HostEdits : Prop :=
  ∀ r : Runner, r.runInProgress = false →
    (∀ (i : Int) (c : Cell), inRange i = true → ∃ q, r.command (.editCell i c) = .next q ∧
      q.core.mem.cell? i = some c ∧ (∀ j : Int, j ≠ i → q.core.mem.cell? j = r.core.mem.cell? j) ∧
      q.core.acc = r.core.acc ∧ q.core.pc = r.core.pc ∧ q.core.status = r.core.status) ∧
    (∀ (i : Int) (c : Cell), inRange i = false → r.command (.editCell i c) = .refused (.noSuchCell i)) ∧
    (∀ v : Int, r.command (.setPc v) = .next { r with core := { r.core with pc := v } }) ∧
    (∀ v : Int, r.command (.setAcc v) = .next { r with core := { r.core with acc := v } })

/-- R148, R137, R112. Reset sets PC, ACC and status and leaves memory, and it is the only command that takes a core out
of Halted or Faulted. -/
def Obligations.OnlyResetLeavesAStoppedStatus : Prop :=
  (∀ r : Runner, r.runInProgress = false → ∃ q, r.command .reset = .next q ∧ q.core.pc = 0 ∧ q.core.acc = 0 ∧
    q.core.status = .running ∧ r.core.SameCells q.core) ∧
  (∀ (r q : Runner) (c : Command), r.core.status ≠ .running → c ≠ .reset → r.command c = .next q →
    q.core.status = r.core.status) ∧
  (∀ r : Runner, r.core.status ≠ .running → r.tick.core = r.core)

/-- R113, R116. Step runs exactly one step, and does nothing on a stopped core; Observe changes nothing and shows the
100 raw cells with their integers. -/
def Obligations.StepAndObserveCommands : Prop :=
  (∀ (r : Runner) (t : State), r.runInProgress = false → step r.core = .next t →
    r.command .step = .next { r with core := t }) ∧
  (∀ r : Runner, r.runInProgress = false → r.core.status ≠ .running → r.command .step = .next r) ∧
  (∀ r : Runner, r.runInProgress = false → r.command .observe = .next r) ∧
  (∀ (s : State) (i : Nat), i < 100 → s.observe.cells[i]? = s.mem.cell? (i : Int) ∧
    s.observe.values[i]? = s.memRead (i : Int)) ∧
  (∀ s : State, s.observe.cells.length = 100 ∧ s.observe.pc = s.pc ∧ s.observe.acc = s.acc ∧
    s.observe.status = s.status)

/-- R114. Run clears the halt request and repeats steps while the status is Running: n iterations run the core as far as
n steps go, and once the core has stopped the next iteration returns. -/
def Obligations.RunRepeatsSteps : Prop :=
  (∀ r : Runner, r.runInProgress = false → r.command .run = .next r.startRun) ∧
  (∀ (r : Runner) (n : Nat), (Runner.ticks n r.startRun).core = runBudget n r.core) ∧
  (∀ (r : Runner) (n : Nat), (Runner.ticks n r.startRun).core.status ≠ .running →
    (Runner.ticks (n + 1) r.startRun).runInProgress = false) ∧
  (∀ (r : Runner) (n : Nat), (Runner.ticks n r.startRun).core.status = .running →
    (Runner.ticks n r.startRun).runInProgress = true)

/-- From R115, R117 and R140. While a Run is in progress every command but RequestHalt is refused. A halt request changes
no core state; the next iteration returns without a step, and a later Run goes on from the same core. That Observe and a
second Run are among the refused commands, and what a request does outside a Run, are the model's choices
(notes/assumptions/8.md and 9.md). -/
def Obligations.OnlyAHaltRequestDuringARun : Prop :=
  (∀ (r : Runner) (c : Command), r.runInProgress = true → c ≠ .requestHalt →
    r.command c = .refused .runInProgress) ∧
  (∀ r : Runner, r.command .requestHalt = .next { r with haltRequested := true }) ∧
  (∀ r q : Runner, r.runInProgress = true → r.command .requestHalt = .next q →
    q.core = r.core ∧ q.tick.core = r.core ∧ q.tick.runInProgress = false ∧
    (∀ n, (Runner.ticks n q.tick.startRun).core = runBudget n r.core))

/-! ### The harness -/

/-- R119, R120. The clone is a fresh machine: PC 0, ACC 0, Running, every cell Num of the baseline's coerced value. The
overrides of a well-formed mapping then put Num of the coerced value at every key and leave the rest. -/
def Obligations.CloneAndOverrides : Prop :=
  (∀ (cfg : Config) (baseline : Memory),
    (cloneMachine cfg baseline).pc = 0 ∧ (cloneMachine cfg baseline).acc = 0 ∧
    (cloneMachine cfg baseline).status = .running ∧ (cloneMachine cfg baseline).cfg = cfg ∧
    ∀ i : Int, 0 ≤ i → i < 100 →
      (cloneMachine cfg baseline).mem.cell? i = some (.num (coerce cfg (baseline.peek i.toNat)))) ∧
  (∀ (s : State) (before : Mapping) (entries : List (Nat × Token)), resolveKeys before = some entries →
    (∀ e ∈ entries, (applyOverrides entries s).mem.cell? (e.1 : Int) = some (.num (coerce s.cfg (tokenCell e.2)))) ∧
    (∀ j : Int, (∀ e ∈ entries, (e.1 : Int) ≠ j) → (applyOverrides entries s).mem.cell? j = s.mem.cell? j) ∧
    (applyOverrides entries s).pc = s.pc ∧ (applyOverrides entries s).acc = s.acc ∧
    (applyOverrides entries s).status = s.status ∧ (applyOverrides entries s).cfg = s.cfg)

/-- R121. A budgeted run is some number of steps, at most 1000: every one of them from a running state, and fewer than
1000 only when the core has stopped. The run of a case is the budgeted run from the state that R119 and R120 build: PC 0,
ACC 0, Running, every cell that the before mapping names its coerced value there and every other the baseline's. -/
def Obligations.CaseRunStaysInTheBudget : Prop :=
  (∀ s : State, ∃ n, n ≤ 1000 ∧ runBudget Config.stepBudget s = stepsOf n s ∧
    (∀ m, m < n → (stepsOf m s).status = .running) ∧ (n < 1000 → (stepsOf n s).status ≠ .running)) ∧
  (∀ (cfg : Config) (baseline : Memory) (before : Mapping) (entries : List (Nat × Token)),
    resolveKeys before = some entries → ∃ (s : State) (n : Nat),
      s.pc = 0 ∧ s.acc = 0 ∧ s.status = .running ∧ s.cfg = cfg ∧
      (∀ e ∈ entries, s.mem.cell? (e.1 : Int) = some (.num (coerce cfg (tokenCell e.2)))) ∧
      (∀ i : Int, 0 ≤ i → i < 100 → (∀ e ∈ entries, (e.1 : Int) ≠ i) →
        s.mem.cell? i = some (.num (coerce cfg (baseline.peek i.toNat)))) ∧
      n ≤ 1000 ∧ runCase cfg baseline before = stepsOf n s ∧
      (∀ m, m < n → (stepsOf m s).status = .running) ∧ (n < 1000 → (stepsOf n s).status ≠ .running))

/-- R123, R124. A case passes exactly when every cell its after mapping names holds the expected integer, whatever ended
the run; an empty mapping passes; the result carries the case's before mapping and the 100 final integers. -/
def Obligations.CasePassesOnNamedCells : Prop :=
  ∀ (cfg : Config) (baseline : Memory) (c : TestCase) (expected : List (Nat × Token)),
    resolveKeys c.after = some expected →
    ((gradeCase cfg baseline c).pass = true ↔
      ∀ e ∈ expected, (runCase cfg baseline c.before).memRead (e.1 : Int) = some (coerce cfg (tokenCell e.2))) ∧
    (c.after = [] → (gradeCase cfg baseline c).pass = true) ∧
    (gradeCase cfg baseline c).before = c.before ∧
    (gradeCase cfg baseline c).finalMemory.length = 100 ∧
    ∀ i : Nat, i < 100 → (gradeCase cfg baseline c).finalMemory[i]? = (runCase cfg baseline c.before).memRead (i : Int)

/-- R125, R129. A suite with a key that spells no integer from 0 to 99 is refused as a whole; a well-formed suite is
graded, the k-th result is the k-th case's, and its score is passes over total, between 0 and 1, handed to save with the baseline; an empty suite has none. -/
def Obligations.ScoreOfASuite : Prop :=
  ∀ (cfg : Config) (baseline : Memory) (suite : List TestCase),
    ((∃ c ∈ suite, ∃ e ∈ c.before ++ c.after, ∀ n, decimalLiteral? e.1 = some n → n < 0 ∨ 100 ≤ n) →
      gradeSuite cfg baseline suite = .refused .illFormedSuite) ∧
    ((∀ c ∈ suite, c.wellFormed = true) → ∃ rep, gradeSuite cfg baseline suite = .next rep ∧
      rep.results.length = suite.length ∧
      (∀ (k : Nat) (c : TestCase), suite[k]? = some c → rep.results[k]? = some (gradeCase cfg baseline c)) ∧
      (suite = [] → rep.score = none) ∧
      (suite ≠ [] → rep.save.score = rep.score ∧ rep.save.state = baseline ∧
        ∃ q : Rat, rep.score = some q ∧ 0 ≤ q ∧ q ≤ 1 ∧
        q * (suite.length : Rat) = ((suite.filter fun c => (gradeCase cfg baseline c).pass).length : Rat)))

/-- R127, R128 (with R36). A case's result depends on its own before and after and on the coerced baseline alone: not on
the other cases, not on their order, not on how the baseline is spelled. -/
def Obligations.CasesAreIndependent : Prop :=
  (∀ (cfg : Config) (baseline : Memory) (xs ys : List TestCase) (c : TestCase) (rep : GradingReport),
    gradeSuite cfg baseline (xs ++ c :: ys) = .next rep →
    ∃ alone, gradeSuite cfg baseline [c] = .next alone ∧ alone.results[0]? = rep.results[xs.length]? ∧
      rep.results[xs.length]? = some (gradeCase cfg baseline c)) ∧
  (∀ (cfg : Config) (b₁ b₂ : Memory) (c : TestCase), b₁.values cfg = b₂.values cfg →
    gradeCase cfg b₁ c = gradeCase cfg b₂ c)

/-! ### The host keeps the invariant -/

/-- Every accepted command and every iteration of Run keep the structural invariant of the core, and the harness's
machines have it from the clone to the end of the case. The canonical form of memory in it is the model's own choice
(notes/assumptions/6.md). -/
def Obligations.HostKeepsTheInvariant : Prop :=
  (∀ (r q : Runner) (c : Command), r.core.Inv → r.command c = .next q → q.core.Inv) ∧
  (∀ r : Runner, r.core.Inv → r.tick.core.Inv) ∧
  (∀ (cfg : Config) (baseline : Memory), cfg.wellFormed = true → (cloneMachine cfg baseline).Inv ∧
    ∀ before : Mapping, (applyOverrides (mappingEntries before) (cloneMachine cfg baseline)).Inv ∧
      (runCase cfg baseline before).Inv)
end

