-- ==== Sys2Proof/Laws/Decode.lean ====
section
/-! SUPPORT. The opcode map, the decoder and the coercion, case by case. -/

namespace Sys2Proof

/-! ### Well-formed configurations -/

theorem Config.mem_namesOf {cfg : Config} {code : Int} {key : Text} :
    key ∈ cfg.namesOf code ↔ (key, code) ∈ cfg.mnemonics := by
  simp [Config.namesOf]

/-- Everything a well-formed configuration says of its mnemonic table (30_encoding.md R76): lower-case keys, codes of the
dialect, one entry a key, and exactly one key for each code of the dialect. -/
theorem Config.wellFormed_spec {cfg : Config} (h : cfg.wellFormed = true) :
    (∀ e ∈ cfg.mnemonics, Config.lowerKey e.1 = true ∧ e.2 ∈ cfg.codes) ∧ (cfg.mnemonics.map Prod.fst).Nodup ∧
    ∀ code ∈ cfg.codes, ∃! key, (key, code) ∈ cfg.mnemonics := by
  simp only [Config.wellFormed, Config.codeAllowed, Bool.and_eq_true, List.all_eq_true, decide_eq_true_eq] at h
  refine ⟨h.1.1, h.1.2, fun code hc => ?_⟩
  obtain ⟨key, hk⟩ := List.length_eq_one_iff.mp (by simpa [Config.namedOnce] using h.2 code hc)
  exact ⟨key, Config.mem_namesOf.mp (by simp [hk]), fun y hy => by simpa [hk] using Config.mem_namesOf.mpr hy⟩

/-! ### The valid set and the opcode map -/

theorem mem_validBase {op : Int} :
    op ∈ validBase ↔ op = 0 ∨ op = 44 ∨ op = 45 ∨ op = 50 ∨ op = 51 ∨ op = 127 ∨ op = 128 ∨ op = 160 ∨ op = 161 := by
  simp [validBase]

/-- The valid set as one condition on the integer (30_encoding.md R62). -/
theorem mem_validSet {cfg : Config} {op : Int} :
    op ∈ validSet cfg ↔ op ∈ validBase ∨ (cfg.extended = true ∧ op = 52) ∨
      (cfg.extended = true ∧ cfg.divInValidSet = true ∧ op = 53) := by
  unfold validSet
  cases cfg.extended <;> cases cfg.divInValidSet <;> simp

theorem Opcode.code_injective {o p : Opcode} (h : o.code = p.code) : o = p := by
  cases o <;> cases p <;> first | rfl | simp [Opcode.code] at h

theorem Opcode.mem_table (o : Opcode) : o ∈ opcodeTable := by cases o <;> simp [opcodeTable]

/-- Every valid value is the code of an opcode. -/
theorem exists_opcode_of_mem {cfg : Config} {op : Int} (h : op ∈ validSet cfg) : ∃ o : Opcode, op = o.code := by
  rcases mem_validSet.mp h with h | ⟨_, h⟩ | ⟨_, _, h⟩
  · rcases mem_validBase.mp h with h | h | h | h | h | h | h | h | h
    exacts [⟨.stop, h⟩, ⟨.addi, h⟩, ⟨.subi, h⟩, ⟨.add, h⟩, ⟨.sub, h⟩, ⟨.jpos, h⟩, ⟨.jzero, h⟩, ⟨.store, h⟩, ⟨.load, h⟩]
  · exact ⟨.mul, h⟩
  · exact ⟨.div, h⟩

theorem find?_code (o : Opcode) : opcodeTable.find? (fun p => p.code == o.code) = some o := by
  cases o <;> rfl

/-- An integer selects an opcode just when it is its code and valid (30_encoding.md R54, R64). -/
theorem opcodeOf_eq_some {cfg : Config} {op : Int} {o : Opcode} :
    opcodeOf cfg op = some o ↔ op = o.code ∧ op ∈ validSet cfg := by
  unfold opcodeOf
  constructor
  · intro h
    split at h
    · rename_i hv
      exact ⟨(by simpa using List.find?_some h : o.code = op).symm, hv⟩
    · cases h
  · rintro ⟨rfl, hv⟩
    rw [if_pos hv, find?_code]

theorem opcodeOf_eq_none {cfg : Config} {op : Int} : opcodeOf cfg op = none ↔ op ∉ validSet cfg := by
  constructor
  · intro h hv
    obtain ⟨o, rfl⟩ := exists_opcode_of_mem hv
    simp [opcodeOf_eq_some.mpr ⟨rfl, hv⟩] at h
  · intro hv
    simp [opcodeOf, hv]

theorem Instr.code_mem_validSet {cfg : Config} (i : Instr) : i.opcode.code ∈ validSet cfg ↔ i.wellFormed cfg = true := by
  rw [mem_validSet]
  cases i <;> simp [validBase, Opcode.code, Instr.opcode, Instr.wellFormed]

theorem Opcode.build_opcode (o : Opcode) (a : Int) : (o.build a).opcode = o := by cases o <;> rfl

theorem Opcode.build_operand? {o : Opcode} (h : o ≠ .stop) (a : Int) : (o.build a).operand? = some a := by
  cases o <;> first | rfl | exact absurd rfl h

theorem Instr.build_of_operand? {i : Instr} {a : Int} (h : i.operand? = some a) : i.opcode.build a = i := by
  cases i <;> simp_all [Instr.operand?, Opcode.build, Instr.opcode]

theorem Instr.operand?_eq_none {i : Instr} : i.operand? = none ↔ i = .stop := by
  cases i <;> simp [Instr.operand?]

theorem Instr.opcode_eq_stop {i : Instr} : i.opcode = .stop ↔ i = .stop := by
  cases i <;> simp [Instr.opcode]

/-! ### The decoder's answers -/

theorem decodeCells_invalid {cfg : Config} {c : Cell} (rest : List Cell) (h : coerce cfg c ∉ validSet cfg) :
    decodeCells cfg (c :: rest) = .invalidOpcode (coerce cfg c) := by
  simp [decodeCells, opcodeOf_eq_none.mpr h]

theorem decodeCells_stop {cfg : Config} {c : Cell} (rest : List Cell) (h : coerce cfg c = 0) :
    decodeCells cfg (c :: rest) = .instr .stop rest := by
  have : opcodeOf cfg (coerce cfg c) = some .stop :=
    opcodeOf_eq_some.mpr ⟨h, mem_validSet.mpr (.inl (h ▸ mem_validBase.mpr (.inl rfl)))⟩
  simp [decodeCells, this]

theorem decodeCells_twoCell {cfg : Config} {c : Cell} {o : Opcode} (rest : List Cell) (ho : o ≠ .stop)
    (hc : coerce cfg c = o.code) (hv : o.code ∈ validSet cfg) :
    decodeCells cfg (c :: rest) = decodeOperand cfg o rest := by
  have h : opcodeOf cfg (coerce cfg c) = some o := opcodeOf_eq_some.mpr ⟨hc, hc ▸ hv⟩
  cases o <;> first | exact absurd rfl ho | simp [decodeCells, h]

/-- Every way the decoder can answer. -/
theorem decodeCells_cases (cfg : Config) (cells : List Cell) :
    (cells = [] ∧ decodeCells cfg cells = .noOpcodeCell) ∨
    (∃ c rest, cells = c :: rest ∧ coerce cfg c ∉ validSet cfg ∧
      decodeCells cfg cells = .invalidOpcode (coerce cfg c)) ∨
    (∃ c rest, cells = c :: rest ∧ coerce cfg c = 0 ∧ decodeCells cfg cells = .instr .stop rest) ∨
    (∃ c o, cells = [c] ∧ o ≠ Opcode.stop ∧ coerce cfg c = o.code ∧ o.code ∈ validSet cfg ∧
      decodeCells cfg cells = .noOperandCell) ∨
    (∃ c d rest o, cells = c :: d :: rest ∧ o ≠ Opcode.stop ∧ coerce cfg c = o.code ∧ o.code ∈ validSet cfg ∧
      decodeCells cfg cells = .instr (o.build (coerce cfg d)) rest) := by
  cases cells with
  | nil => exact .inl ⟨rfl, rfl⟩
  | cons c rest =>
    by_cases hv : coerce cfg c ∈ validSet cfg
    · obtain ⟨o, ho⟩ := exists_opcode_of_mem hv
      by_cases hs : o = .stop
      · subst hs
        exact .inr (.inr (.inl ⟨c, rest, rfl, ho, decodeCells_stop rest ho⟩))
      · have hd := decodeCells_twoCell rest hs ho (ho ▸ hv)
        cases rest with
        | nil => exact .inr (.inr (.inr (.inl ⟨c, o, rfl, hs, ho, ho ▸ hv, hd⟩)))
        | cons d rest => exact .inr (.inr (.inr (.inr ⟨c, d, rest, o, rfl, hs, ho, ho ▸ hv, hd⟩)))
    · exact .inr (.inl ⟨c, rest, rfl, hv, decodeCells_invalid rest hv⟩)

/-! ### Coercion -/

@[simp] theorem coerce_empty (cfg : Config) : coerce cfg .empty = 0 := rfl
@[simp] theorem coerce_num (cfg : Config) (n : Int) : coerce cfg (.num n) = n := rfl

theorem coerceText_blank (cfg : Config) {x : Text} (h : isBlank x = true) : coerceText cfg x = 0 := by
  simp [coerceText, h]

theorem coerceText_mnemonic {cfg : Config} {x : Text} {code : Int} (hb : isBlank x = false)
    (h : lookupMnemonic cfg x = some code) : coerceText cfg x = code := by
  simp [coerceText, hb, h]

theorem coerceText_literal {cfg : Config} {x : Text} {n : Int} (hb : isBlank x = false)
    (hm : lookupMnemonic cfg x = none) (h : decimalLiteral? x = some n) : coerceText cfg x = n := by
  simp [coerceText, hb, hm, h]

theorem coerceText_other {cfg : Config} {x : Text} (hb : isBlank x = false)
    (hm : lookupMnemonic cfg x = none) (h : decimalLiteral? x = none) : coerceText cfg x = coerceOther x := by
  simp [coerceText, hb, hm, h]

theorem coerceOther_of_no_digit {x : Text} (h : hasDigit x = false) : coerceOther x = 0 := by
  simp [coerceOther, h]

end Sys2Proof
end

