-- ==== Sys2Proof/Laws/State.lean ====
section
/-! SUPPORT. What each update of State leaves in each field. -/

namespace Sys2Proof.Machine

variable (s : State)

@[simp] theorem State.setAcc_acc (v : Int) : (s.setAcc v).acc = v := rfl
@[simp] theorem State.setAcc_pc (v : Int) : (s.setAcc v).pc = s.pc := rfl
@[simp] theorem State.setAcc_status (v : Int) : (s.setAcc v).status = s.status := rfl
@[simp] theorem State.setAcc_mem (v : Int) : (s.setAcc v).mem = s.mem := rfl
@[simp] theorem State.setAcc_cfg (v : Int) : (s.setAcc v).cfg = s.cfg := rfl

@[simp] theorem State.setPc_acc (v : Int) : (s.setPc v).acc = s.acc := rfl
@[simp] theorem State.setPc_pc (v : Int) : (s.setPc v).pc = v := rfl
@[simp] theorem State.setPc_status (v : Int) : (s.setPc v).status = s.status := rfl
@[simp] theorem State.setPc_mem (v : Int) : (s.setPc v).mem = s.mem := rfl
@[simp] theorem State.setPc_cfg (v : Int) : (s.setPc v).cfg = s.cfg := rfl

@[simp] theorem State.setStatus_acc (v : Status) : (s.setStatus v).acc = s.acc := rfl
@[simp] theorem State.setStatus_pc (v : Status) : (s.setStatus v).pc = s.pc := rfl
@[simp] theorem State.setStatus_status (v : Status) : (s.setStatus v).status = v := rfl
@[simp] theorem State.setStatus_mem (v : Status) : (s.setStatus v).mem = s.mem := rfl
@[simp] theorem State.setStatus_cfg (v : Status) : (s.setStatus v).cfg = s.cfg := rfl

@[simp] theorem State.setMem_acc (m : Memory) : (s.setMem m).acc = s.acc := rfl
@[simp] theorem State.setMem_pc (m : Memory) : (s.setMem m).pc = s.pc := rfl
@[simp] theorem State.setMem_status (m : Memory) : (s.setMem m).status = s.status := rfl
@[simp] theorem State.setMem_mem (m : Memory) : (s.setMem m).mem = m := rfl
@[simp] theorem State.setMem_cfg (m : Memory) : (s.setMem m).cfg = s.cfg := rfl

@[simp] theorem State.advancePc_acc : s.advancePc.acc = s.acc := rfl
@[simp] theorem State.advancePc_pc : s.advancePc.pc = s.pc + 2 := rfl
@[simp] theorem State.advancePc_status : s.advancePc.status = s.status := rfl
@[simp] theorem State.advancePc_mem : s.advancePc.mem = s.mem := rfl
@[simp] theorem State.advancePc_cfg : s.advancePc.cfg = s.cfg := rfl

@[simp] theorem State.resetAction_acc : s.resetAction.acc = 0 := rfl
@[simp] theorem State.resetAction_pc : s.resetAction.pc = 0 := rfl
@[simp] theorem State.resetAction_status : s.resetAction.status = .running := rfl
@[simp] theorem State.resetAction_mem : s.resetAction.mem = s.mem := rfl
@[simp] theorem State.resetAction_cfg : s.resetAction.cfg = s.cfg := rfl

/-- The range check in integer terms. -/
theorem inRange_iff (i : Int) : inRange i = true ↔ 0 ≤ i ∧ i < 100 := by
  simp [inRange]

theorem inRange_eq_false_iff (i : Int) : inRange i = false ↔ ¬ (0 ≤ i ∧ i < 100) := by
  rw [← inRange_iff, Bool.not_eq_true]

/-- Two states with equal fields are equal. -/
theorem State.ext_fields {s t : State} (ha : s.acc = t.acc) (hp : s.pc = t.pc) (hs : s.status = t.status)
    (hm : s.mem = t.mem) (hc : s.cfg = t.cfg) : s = t := by
  cases s; cases t; simp_all

@[simp] theorem State.setAcc_memRead (v i : Int) : (s.setAcc v).memRead i = s.memRead i := rfl
@[simp] theorem State.setPc_memRead (v i : Int) : (s.setPc v).memRead i = s.memRead i := rfl
@[simp] theorem State.setStatus_memRead (v : Status) (i : Int) : (s.setStatus v).memRead i = s.memRead i := rfl
@[simp] theorem State.advancePc_memRead (i : Int) : s.advancePc.memRead i = s.memRead i := rfl

end Sys2Proof.Machine
end

