-- ==== Sys2Proof/Laws/Memory.lean ====
section
/-! SUPPORT. Reads after writes, the canonical form kept by every memory operation, and memories that read alike. -/

namespace Sys2Proof.Machine

@[simp] theorem Memory.peek_nil (i : Nat) : Memory.peek [] i = .empty := rfl

theorem Memory.peek_cons (e : Nat × Cell) (m : Memory) (i : Nat) :
    Memory.peek (e :: m) i = if e.1 = i then e.2 else Memory.peek m i := rfl

theorem Memory.peek_insertCell (m : Memory) (i j : Nat) (c : Cell) :
    (m.insertCell i c).peek j = if i = j then c else m.peek j := by
  induction m with
  | nil => simp [Memory.insertCell, Memory.peek]
  | cons e rest ih =>
    unfold Memory.insertCell
    by_cases hlt : i < e.1
    · simp [hlt, Memory.peek_cons]
    · by_cases heq : i = e.1
      · by_cases hij : i = j <;> simp_all [Memory.peek_cons]
      · by_cases hej : e.1 = j
        · have : ¬ i = j := fun h => heq (h.trans hej.symm)
          rw [if_neg hlt, if_neg heq, if_neg this, Memory.peek_cons, if_pos hej, Memory.peek_cons, if_pos hej]
        · simp [hlt, heq, Memory.peek_cons, hej, ih]

theorem Memory.peek_erase (m : Memory) (i j : Nat) :
    Memory.peek (m.filter fun e => e.1 != i) j = if i = j then .empty else m.peek j := by
  induction m with
  | nil => simp [Memory.peek]
  | cons e rest ih =>
    by_cases hei : e.1 = i
    · by_cases hij : i = j <;> simp_all [Memory.peek_cons]
    · by_cases hej : e.1 = j
      · have : ¬ i = j := fun h => hei (hej.trans h.symm)
        simp_all [Memory.peek_cons]
      · simp_all [Memory.peek_cons]

/-- Reading one cell after writing one cell. -/
theorem Memory.peek_poke (m : Memory) (i j : Nat) (c : Cell) :
    (m.poke i c).peek j = if i = j then c else m.peek j := by
  unfold Memory.poke
  by_cases h : c = .empty
  · simp [h, Memory.peek_erase]
  · simp [h, Memory.peek_insertCell]

@[simp] theorem Memory.peek_poke_self (m : Memory) (i : Nat) (c : Cell) : (m.poke i c).peek i = c := by
  simp [Memory.peek_poke]

/-- A cell exists exactly in range. -/
theorem Memory.cell?_of_inRange (m : Memory) {i : Int} (h : inRange i = true) :
    m.cell? i = some (m.peek i.toNat) := if_pos h

theorem Memory.cell?_of_not_inRange (m : Memory) {i : Int} (h : inRange i = false) : m.cell? i = none := by
  simp [Memory.cell?, h]

/-- The raw read by integer index, after a write to an index in range. -/
theorem Memory.cell?_poke (m : Memory) {i : Int} (j : Int) (c : Cell) (hi : inRange i = true) :
    (m.poke i.toNat c).cell? j = if j = i then some c else m.cell? j := by
  cases hj : inRange j with
  | false =>
    have : j ≠ i := fun h => by simp [h, hi] at hj
    simp [Memory.cell?_of_not_inRange _ hj, this]
  | true =>
    have hiff : i.toNat = j.toNat ↔ j = i := by
      have h1 := ((inRange_iff i).mp hi).1
      have h2 := ((inRange_iff j).mp hj).1
      omega
    by_cases h : j = i
    · subst h
      simp [Memory.cell?_of_inRange _ hj]
    · simp [Memory.cell?_of_inRange _ hj, Memory.peek_poke, hiff, h]

/-! ### The canonical form -/

theorem Memory.wf_nil : Memory.wf [] := by simp [Memory.wf]

theorem Memory.mem_insertCell {m : Memory} {i : Nat} {c : Cell} {x : Nat × Cell} (h : x ∈ m.insertCell i c) :
    x = (i, c) ∨ x ∈ m := by
  induction m with
  | nil => simpa [Memory.insertCell] using h
  | cons e rest ih =>
    unfold Memory.insertCell at h
    split at h
    · simpa using h
    · split at h
      · rcases List.mem_cons.mp h with h | h
        · exact .inl h
        · exact .inr (List.mem_cons_of_mem _ h)
      · rcases List.mem_cons.mp h with h | h
        · exact .inr (h ▸ List.mem_cons_self ..)
        · exact (ih h).imp id (List.mem_cons_of_mem _)

theorem Memory.pairwise_insertCell {m : Memory} (i : Nat) (c : Cell)
    (h : m.Pairwise fun a b => a.1 < b.1) : (m.insertCell i c).Pairwise fun a b => a.1 < b.1 := by
  induction m with
  | nil => simp [Memory.insertCell]
  | cons e rest ih =>
    obtain ⟨he, hrest⟩ := List.pairwise_cons.mp h
    unfold Memory.insertCell
    split
    · rename_i hlt
      refine List.pairwise_cons.mpr ⟨fun x hx => ?_, h⟩
      rcases List.mem_cons.mp hx with rfl | hx
      · exact hlt
      · exact Nat.lt_trans hlt (he x hx)
    · split
      · rename_i _ heq
        exact List.pairwise_cons.mpr ⟨fun x hx => heq ▸ he x hx, hrest⟩
      · rename_i hlt heq
        refine List.pairwise_cons.mpr ⟨fun x hx => ?_, ih hrest⟩
        rcases Memory.mem_insertCell hx with rfl | hx
        · simp only; omega
        · exact he x hx

/-- Every write of one cell keeps the canonical form. -/
theorem Memory.wf_poke {m : Memory} (h : m.wf) {i : Nat} (hi : i < Config.memSize) (c : Cell) : (m.poke i c).wf := by
  unfold Memory.poke
  split
  · exact ⟨h.1.filter _, fun e he => h.2 e (List.mem_of_mem_filter he)⟩
  · rename_i hc
    refine ⟨Memory.pairwise_insertCell i c h.1, fun e he => ?_⟩
    rcases Memory.mem_insertCell he with rfl | he
    · exact ⟨hi, hc⟩
    · exact h.2 e he

theorem Memory.peek_eq_empty {m : Memory} {i : Nat} (h : ∀ e ∈ m, e.1 ≠ i) : m.peek i = .empty := by
  induction m with
  | nil => rfl
  | cons e rest ih =>
    rw [Memory.peek_cons, if_neg (h e (List.mem_cons_self ..))]
    exact ih fun x hx => h x (List.mem_cons_of_mem _ hx)

/-- Equal memories are equal data: canonical memories that read alike are the same list. -/
theorem Memory.eq_of_peek_eq {m n : Memory} (hm : m.wf) (hn : n.wf) (h : ∀ i, m.peek i = n.peek i) : m = n := by
  induction m generalizing n with
  | nil =>
    cases n with
    | nil => rfl
    | cons e rest =>
      have := h e.1
      rw [Memory.peek_cons, if_pos rfl] at this
      exact absurd this.symm (hn.2 e (List.mem_cons_self ..)).2
  | cons d m ih =>
    cases n with
    | nil =>
      have := h d.1
      rw [Memory.peek_cons, if_pos rfl] at this
      exact absurd this (hm.2 d (List.mem_cons_self ..)).2
    | cons e n =>
      obtain ⟨hd, hm'⟩ := List.pairwise_cons.mp hm.1
      obtain ⟨he, hn'⟩ := List.pairwise_cons.mp hn.1
      have hdne := (hm.2 d (List.mem_cons_self ..)).2
      have hene := (hn.2 e (List.mem_cons_self ..)).2
      have hkey : d.1 = e.1 := by
        rcases Nat.lt_trichotomy d.1 e.1 with hlt | heq | hgt
        · have := h d.1
          rw [Memory.peek_cons, if_pos rfl, Memory.peek_cons, if_neg (by omega),
            Memory.peek_eq_empty fun x hx => by have := he x hx; omega] at this
          exact absurd this hdne
        · exact heq
        · have := h e.1
          rw [Memory.peek_cons, if_neg (by omega), Memory.peek_cons, if_pos rfl,
            Memory.peek_eq_empty fun x hx => by have := hd x hx; omega] at this
          exact absurd this.symm hene
      have hval : d.2 = e.2 := by
        have := h d.1
        rwa [Memory.peek_cons, if_pos rfl, Memory.peek_cons, if_pos hkey.symm] at this
      have htail : m = n := by
        refine ih ⟨hm', fun x hx => hm.2 x (List.mem_cons_of_mem _ hx)⟩
          ⟨hn', fun x hx => hn.2 x (List.mem_cons_of_mem _ hx)⟩ fun i => ?_
        by_cases hi : d.1 = i
        · rw [Memory.peek_eq_empty fun x hx => by have := hd x hx; omega,
            Memory.peek_eq_empty fun x hx => by have := he x hx; omega]
        · have := h i
          rwa [Memory.peek_cons, if_neg hi, Memory.peek_cons, if_neg (hkey ▸ hi)] at this
      exact List.cons_eq_cons.mpr ⟨Prod.ext hkey hval, htail⟩

/-! ### MemRead and MemWrite -/

theorem State.memRead_of_inRange (s : State) {i : Int} (h : inRange i = true) :
    s.memRead i = some (coerce s.cfg (s.mem.peek i.toNat)) := by
  simp [State.memRead, Memory.cell?_of_inRange _ h]

theorem State.memRead_of_not_inRange (s : State) {i : Int} (h : inRange i = false) : s.memRead i = none := by
  simp [State.memRead, Memory.cell?_of_not_inRange _ h]

theorem State.memRead_eq_none (s : State) (i : Int) : s.memRead i = none ↔ inRange i = false := by
  cases h : inRange i
  · simp [s.memRead_of_not_inRange h]
  · simp [s.memRead_of_inRange h]

theorem State.inRange_of_memRead {s : State} {i v : Int} (h : s.memRead i = some v) : inRange i = true := by
  cases hi : inRange i
  · simp [s.memRead_of_not_inRange hi] at h
  · rfl

theorem State.memWrite_of_inRange (s : State) {i : Int} (h : inRange i = true) (v : Int) :
    s.memWrite i v = some (s.setMem (s.mem.poke i.toNat (.num v))) := if_pos h

theorem State.memWrite_of_not_inRange (s : State) {i : Int} (h : inRange i = false) (v : Int) :
    s.memWrite i v = none := by
  simp [State.memWrite, h]

/-- An index in range names a cell of the memory list. -/
theorem toNat_lt_memSize {i : Int} (h : inRange i = true) : i.toNat < Config.memSize := by
  have := (inRange_iff i).mp h
  simp only [Config.memSize]
  omega

end Sys2Proof.Machine
end

