-- ==== Sys2Proof/Laws/Ops.lean ====
section
/-! SUPPORT. What each shared operation answers, and what an instruction can do. -/

namespace Sys2Proof.Machine

theorem accFromImmediate_eq (f : Int → Int → Int) (a : Int) (s : State) :
    accFromImmediate f a s = .next (s.setAcc (f s.acc a)).advancePc := rfl

theorem accFromCell_inRange (f : Int → Int → Int) {a : Int} (s : State) (h : inRange a = true) :
    accFromCell f a s = .next (s.setAcc (f s.acc (coerce s.cfg (s.mem.peek a.toNat)))).advancePc := by
  simp [accFromCell, effectiveAddress, s.memRead_of_inRange h]

theorem accFromCell_outOfRange (f : Int → Int → Int) {a : Int} (s : State) (h : inRange a = false) :
    accFromCell f a s = .next (s.setStatus (.faulted .dataRead a)) := by
  simp [accFromCell, effectiveAddress, s.memRead_of_not_inRange h, raiseOutOfBounds]

theorem cellFromValue_inRange (v : Int) {a : Int} (s : State) (h : inRange a = true) :
    cellFromValue v a s = .next (s.setMem (s.mem.poke a.toNat (.num v))).advancePc := by
  simp [cellFromValue, effectiveAddress, s.memWrite_of_inRange h]

theorem cellFromValue_outOfRange (v : Int) {a : Int} (s : State) (h : inRange a = false) :
    cellFromValue v a s = .next (s.setStatus (.faulted .dataWrite a)) := by
  simp [cellFromValue, effectiveAddress, s.memWrite_of_not_inRange h, raiseOutOfBounds]

theorem branchIf_eq (taken : Bool) (a : Int) (s : State) :
    branchIf taken a s = .next (s.setPc (if taken then a else s.pc + 2)) := by
  cases taken <;> rfl

/-- Everything an instruction can do: halt, fault, compute ACC, write one cell, or set PC. -/
theorem exec_cases (i : Instr) (s : State) :
    (i = .stop ∧ exec i s = .next (s.setStatus .halted)) ∨
    (∃ a, i.operand? = some a ∧ inRange a = false ∧ i.opcode ∈ [Opcode.load, .add, .sub, .mul, .div] ∧
      exec i s = .next (s.setStatus (.faulted .dataRead a))) ∨
    (∃ a, i = .store a ∧ inRange a = false ∧ exec i s = .next (s.setStatus (.faulted .dataWrite a))) ∨
    (∃ v, i.opcode ∈ [Opcode.addi, .subi, .load, .add, .sub, .mul, .div] ∧
      exec i s = .next (s.setAcc v).advancePc) ∨
    (∃ a, i = .store a ∧ inRange a = true ∧
      exec i s = .next (s.setMem (s.mem.poke a.toNat (.num s.acc))).advancePc) ∨
    (∃ a, i = .jpos a ∧ exec i s = .next (s.setPc (if 0 < s.acc then a else s.pc + 2))) ∨
    (∃ a, i = .jzero a ∧ exec i s = .next (s.setPc (if s.acc = 0 then a else s.pc + 2))) := by
  have read : ∀ (f : Int → Int → Int) (a : Int), i.operand? = some a →
      i.opcode ∈ [Opcode.load, .add, .sub, .mul, .div] → exec i s = accFromCell f a s →
      (∃ a, i.operand? = some a ∧ inRange a = false ∧ i.opcode ∈ [Opcode.load, .add, .sub, .mul, .div] ∧
        exec i s = .next (s.setStatus (.faulted .dataRead a))) ∨
      (∃ v, i.opcode ∈ [Opcode.addi, .subi, .load, .add, .sub, .mul, .div] ∧
        exec i s = .next (s.setAcc v).advancePc) := by
    intro f a ha ho he
    cases hr : inRange a
    · exact .inl ⟨a, ha, hr, ho, he.trans (accFromCell_outOfRange f s hr)⟩
    · exact .inr ⟨_, List.mem_cons_of_mem _ (List.mem_cons_of_mem _ ho), he.trans (accFromCell_inRange f s hr)⟩
  cases i with
  | stop => exact .inl ⟨rfl, rfl⟩
  | addi a => exact .inr (.inr (.inr (.inl ⟨_, by simp [Instr.opcode], rfl⟩)))
  | subi a => exact .inr (.inr (.inr (.inl ⟨_, by simp [Instr.opcode], rfl⟩)))
  | add a =>
    rcases read (fun acc v => acc + v) a rfl (by simp [Instr.opcode]) rfl with h | h
    exacts [.inr (.inl h), .inr (.inr (.inr (.inl h)))]
  | sub a =>
    rcases read (fun acc v => acc - v) a rfl (by simp [Instr.opcode]) rfl with h | h
    exacts [.inr (.inl h), .inr (.inr (.inr (.inl h)))]
  | mul a =>
    rcases read (fun acc v => acc * v) a rfl (by simp [Instr.opcode]) rfl with h | h
    exacts [.inr (.inl h), .inr (.inr (.inr (.inl h)))]
  | div a =>
    rcases read divideOrKeep a rfl (by simp [Instr.opcode]) rfl with h | h
    exacts [.inr (.inl h), .inr (.inr (.inr (.inl h)))]
  | load a =>
    rcases read (fun _ v => v) a rfl (by simp [Instr.opcode]) rfl with h | h
    exacts [.inr (.inl h), .inr (.inr (.inr (.inl h)))]
  | jpos a =>
    refine .inr (.inr (.inr (.inr (.inr (.inl ⟨a, rfl, ?_⟩)))))
    simp [exec, execJpos, branchIf_eq, accPositive]
  | jzero a =>
    refine .inr (.inr (.inr (.inr (.inr (.inr ⟨a, rfl, ?_⟩)))))
    simp [exec, execJzero, branchIf_eq, accZero]
  | store a =>
    cases hr : inRange a
    · exact .inr (.inr (.inl ⟨a, rfl, hr, cellFromValue_outOfRange s.acc s hr⟩))
    · exact .inr (.inr (.inr (.inr (.inl ⟨a, rfl, hr, cellFromValue_inRange s.acc s hr⟩))))

end Sys2Proof.Machine
end

