-- ==== Sys2Proof/Laws/Step.lean ====
section
/-! SUPPORT. What a fetch finds, and everything a step can do. -/

namespace Sys2Proof.Machine

/-! ### Fetch -/

theorem Memory.cellsFrom_outOfRange (m : Memory) {i : Int} (h : inRange i = false) : m.cellsFrom i = [] := by
  simp [Memory.cellsFrom, Memory.cell?_of_not_inRange _ h]

theorem Memory.cellsFrom_inRange (m : Memory) {i : Int} (h : inRange i = true) :
    m.cellsFrom i = m.peek i.toNat :: (m.cell? (i + 1)).toList := by
  simp [Memory.cellsFrom, Memory.cell?_of_inRange _ h]

theorem fetch_outOfRange {s : State} (h : inRange s.pc = false) : fetch s = .outOfBounds .fetchOpcode s.pc := by
  simp [fetch, Memory.cellsFrom_outOfRange _ h, decodeCells]

theorem fetch_invalid {s : State} {op : Int} (h : s.memRead s.pc = some op) (hv : op ∉ validSet s.cfg) :
    fetch s = .invalid op := by
  have hr := State.inRange_of_memRead h
  rw [s.memRead_of_inRange hr, Option.some.injEq] at h
  subst h
  simp [fetch, Memory.cellsFrom_inRange _ hr, decodeCells_invalid _ hv]

theorem fetch_stop {s : State} (h : s.memRead s.pc = some 0) : fetch s = .instr .stop := by
  have hr := State.inRange_of_memRead h
  rw [s.memRead_of_inRange hr, Option.some.injEq] at h
  simp [fetch, Memory.cellsFrom_inRange _ hr, decodeCells_stop _ h]

theorem fetch_noOperand {s : State} {o : Opcode} (ho : o ≠ .stop) (h : s.memRead s.pc = some o.code)
    (hv : o.code ∈ validSet s.cfg) (hn : inRange (s.pc + 1) = false) :
    fetch s = .outOfBounds .fetchOperand (s.pc + 1) := by
  have hr := State.inRange_of_memRead h
  rw [s.memRead_of_inRange hr, Option.some.injEq] at h
  simp [fetch, Memory.cellsFrom_inRange _ hr, decodeCells_twoCell _ ho h hv, Memory.cell?_of_not_inRange _ hn,
    decodeOperand]

theorem fetch_instr {s : State} {o : Opcode} {a : Int} (ho : o ≠ .stop) (h : s.memRead s.pc = some o.code)
    (hv : o.code ∈ validSet s.cfg) (ha : s.memRead (s.pc + 1) = some a) : fetch s = .instr (o.build a) := by
  have hr := State.inRange_of_memRead h
  have hr' := State.inRange_of_memRead ha
  rw [s.memRead_of_inRange hr, Option.some.injEq] at h
  rw [s.memRead_of_inRange hr', Option.some.injEq] at ha
  subst ha
  simp [fetch, Memory.cellsFrom_inRange _ hr, decodeCells_twoCell _ ho h hv, Memory.cell?_of_inRange _ hr',
    decodeOperand]

/-- Everything a fetch can find, with the reason. -/
theorem fetch_cases (s : State) :
    (inRange s.pc = false ∧ fetch s = .outOfBounds .fetchOpcode s.pc) ∨
    (∃ op, s.memRead s.pc = some op ∧ op ∉ validSet s.cfg ∧ fetch s = .invalid op) ∨
    (s.memRead s.pc = some 0 ∧ fetch s = .instr .stop) ∨
    (∃ o : Opcode, o ≠ .stop ∧ s.memRead s.pc = some o.code ∧ o.code ∈ validSet s.cfg ∧ inRange (s.pc + 1) = false ∧
      fetch s = .outOfBounds .fetchOperand (s.pc + 1)) ∨
    (∃ (o : Opcode) (a : Int), o ≠ .stop ∧ s.memRead s.pc = some o.code ∧ o.code ∈ validSet s.cfg ∧
      s.memRead (s.pc + 1) = some a ∧ fetch s = .instr (o.build a)) := by
  cases hr : inRange s.pc with
  | false => exact .inl ⟨rfl, fetch_outOfRange hr⟩
  | true =>
    have hop := s.memRead_of_inRange hr
    by_cases hv : coerce s.cfg (s.mem.peek s.pc.toNat) ∈ validSet s.cfg
    · obtain ⟨o, ho⟩ := exists_opcode_of_mem hv
      rw [ho] at hop hv
      by_cases hs : o = .stop
      · subst hs
        exact .inr (.inr (.inl ⟨hop, fetch_stop hop⟩))
      · cases hn : inRange (s.pc + 1) with
        | false => exact .inr (.inr (.inr (.inl ⟨o, hs, hop, hv, rfl, fetch_noOperand hs hop hv hn⟩)))
        | true =>
          have ha := s.memRead_of_inRange hn
          exact .inr (.inr (.inr (.inr ⟨o, _, hs, hop, hv, ha, fetch_instr hs hop hv ha⟩)))
    · exact .inr (.inl ⟨_, hop, hv, fetch_invalid hop hv⟩)

/-! ### Step -/

theorem step_of_stopped {s : State} (h : s.status ≠ .running) : step s = .next s := by
  unfold step
  split <;> first | rfl | exact absurd ‹_› h

theorem step_of_running {s : State} (h : s.status = .running) :
    step s = match fetch s with
      | .instr i => exec i s
      | .invalid _ => haltCore s
      | .outOfBounds kind index => raiseOutOfBounds kind index s := by
  cases hf : fetch s <;> simp only [step, h, hf]

theorem step_of_fetch_instr {s : State} {i : Instr} (h : s.status = .running) (hf : fetch s = .instr i) :
    step s = exec i s := by
  rw [step_of_running h, hf]

theorem step_of_fetch_invalid {s : State} {op : Int} (h : s.status = .running) (hf : fetch s = .invalid op) :
    step s = .next (s.setStatus .halted) := by
  rw [step_of_running h, hf]; rfl

theorem step_of_fetch_outOfBounds {s : State} {kind : AccessKind} {i : Int} (h : s.status = .running)
    (hf : fetch s = .outOfBounds kind i) : step s = .next (s.setStatus (.faulted kind i)) := by
  rw [step_of_running h, hf]; rfl

/-- Everything a step can do: nothing on a stopped core; on a running one a fetch fault, a halt, a data fault, an
accumulator result, one stored cell, or a branch, each with what stands at the program counter. -/
theorem step_cases (s : State) :
    (s.status ≠ .running ∧ step s = .next s) ∨
    (s.status = .running ∧ inRange s.pc = false ∧ step s = .next (s.setStatus (.faulted .fetchOpcode s.pc))) ∨
    (s.status = .running ∧ (∃ op, s.memRead s.pc = some op ∧ (op = 0 ∨ op ∉ validSet s.cfg)) ∧
      step s = .next (s.setStatus .halted)) ∨
    (∃ op, s.status = .running ∧ s.memRead s.pc = some op ∧ op ≠ 0 ∧ op ∈ validSet s.cfg ∧
      inRange (s.pc + 1) = false ∧ step s = .next (s.setStatus (.faulted .fetchOperand (s.pc + 1)))) ∨
    (∃ op a, s.status = .running ∧ s.memRead s.pc = some op ∧ s.memRead (s.pc + 1) = some a ∧ op ∈ validSet s.cfg ∧
      op ∈ ([161, 50, 51, 52, 53] : List Int) ∧ inRange a = false ∧
      step s = .next (s.setStatus (.faulted .dataRead a))) ∨
    (∃ a, s.status = .running ∧ s.memRead s.pc = some 160 ∧ s.memRead (s.pc + 1) = some a ∧ inRange a = false ∧
      step s = .next (s.setStatus (.faulted .dataWrite a))) ∨
    (∃ op a v, s.status = .running ∧ s.memRead s.pc = some op ∧ s.memRead (s.pc + 1) = some a ∧ op ∈ validSet s.cfg ∧
      op ∈ ([44, 45, 161, 50, 51, 52, 53] : List Int) ∧
      (op ∈ ([161, 50, 51, 52, 53] : List Int) → inRange a = true) ∧
      step s = .next (s.setAcc v).advancePc) ∨
    (∃ a, s.status = .running ∧ s.memRead s.pc = some 160 ∧ s.memRead (s.pc + 1) = some a ∧ inRange a = true ∧
      step s = .next (s.setMem (s.mem.poke a.toNat (.num s.acc))).advancePc) ∨
    (∃ a, s.status = .running ∧ s.memRead s.pc = some 127 ∧ s.memRead (s.pc + 1) = some a ∧
      step s = .next (s.setPc (if 0 < s.acc then a else s.pc + 2))) ∨
    (∃ a, s.status = .running ∧ s.memRead s.pc = some 128 ∧ s.memRead (s.pc + 1) = some a ∧
      step s = .next (s.setPc (if s.acc = 0 then a else s.pc + 2))) := by
  by_cases hs : s.status = .running
  swap
  · exact .inl ⟨hs, step_of_stopped hs⟩
  right
  rcases fetch_cases s with ⟨hr, hf⟩ | ⟨op, hop, hv, hf⟩ | ⟨hop, hf⟩ | ⟨o, ho, hop, hv, hn, hf⟩ |
    ⟨o, a, ho, hop, hv, ha, hf⟩
  · exact .inl ⟨hs, hr, step_of_fetch_outOfBounds hs hf⟩
  · exact .inr (.inl ⟨hs, ⟨op, hop, .inr hv⟩, step_of_fetch_invalid hs hf⟩)
  · exact .inr (.inl ⟨hs, ⟨0, hop, .inl rfl⟩, step_of_fetch_instr hs hf⟩)
  · have h0 : o.code ≠ 0 := fun h => ho (Opcode.code_injective (h : o.code = Opcode.stop.code))
    exact .inr (.inr (.inl ⟨_, hs, hop, h0, hv, hn, step_of_fetch_outOfBounds hs hf⟩))
  · have he := step_of_fetch_instr hs hf
    right; right; right
    cases o with
    | stop => exact absurd rfl ho
    | load =>
      cases hr : inRange a
      · exact .inl ⟨161, a, hs, hop, ha, hv, by simp, hr, he.trans (accFromCell_outOfRange (fun _ v => v) s hr)⟩
      · exact .inr (.inr (.inl ⟨161, a, _, hs, hop, ha, hv, by simp, fun _ => hr,
          he.trans (accFromCell_inRange (fun _ v => v) s hr)⟩))
    | add =>
      cases hr : inRange a
      · exact .inl ⟨50, a, hs, hop, ha, hv, by simp, hr, he.trans (accFromCell_outOfRange _ s hr)⟩
      · exact .inr (.inr (.inl ⟨50, a, _, hs, hop, ha, hv, by simp, fun _ => hr,
          he.trans (accFromCell_inRange _ s hr)⟩))
    | sub =>
      cases hr : inRange a
      · exact .inl ⟨51, a, hs, hop, ha, hv, by simp, hr, he.trans (accFromCell_outOfRange _ s hr)⟩
      · exact .inr (.inr (.inl ⟨51, a, _, hs, hop, ha, hv, by simp, fun _ => hr,
          he.trans (accFromCell_inRange _ s hr)⟩))
    | mul =>
      cases hr : inRange a
      · exact .inl ⟨52, a, hs, hop, ha, hv, by simp, hr, he.trans (accFromCell_outOfRange _ s hr)⟩
      · exact .inr (.inr (.inl ⟨52, a, _, hs, hop, ha, hv, by simp, fun _ => hr,
          he.trans (accFromCell_inRange _ s hr)⟩))
    | div =>
      cases hr : inRange a
      · exact .inl ⟨53, a, hs, hop, ha, hv, by simp, hr, he.trans (accFromCell_outOfRange _ s hr)⟩
      · exact .inr (.inr (.inl ⟨53, a, _, hs, hop, ha, hv, by simp, fun _ => hr,
          he.trans (accFromCell_inRange _ s hr)⟩))
    | addi => exact .inr (.inr (.inl ⟨44, a, _, hs, hop, ha, hv, by simp, by simp, he⟩))
    | subi => exact .inr (.inr (.inl ⟨45, a, _, hs, hop, ha, hv, by simp, by simp, he⟩))
    | store =>
      cases hr : inRange a
      · exact .inr (.inl ⟨a, hs, hop, ha, hr, he.trans (cellFromValue_outOfRange _ s hr)⟩)
      · exact .inr (.inr (.inr (.inl ⟨a, hs, hop, ha, hr, he.trans (cellFromValue_inRange _ s hr)⟩)))
    | jpos =>
      refine .inr (.inr (.inr (.inr (.inl ⟨a, hs, hop, ha, he.trans ?_⟩))))
      simp [Opcode.build, exec, execJpos, branchIf_eq, accPositive]
    | jzero =>
      refine .inr (.inr (.inr (.inr (.inr ⟨a, hs, hop, ha, he.trans ?_⟩))))
      simp [Opcode.build, exec, execJzero, branchIf_eq, accZero]

/-- No step ends in a fault or a refusal (40_cycle.md R88). -/
theorem step_answers_next (s : State) : ∃ t, step s = .next t := by
  rcases step_cases s with ⟨_, h⟩ | ⟨_, _, h⟩ | ⟨_, _, h⟩ | ⟨_, _, _, _, _, _, h⟩ | ⟨_, _, _, _, _, _, _, _, h⟩ |
    ⟨_, _, _, _, _, h⟩ | ⟨_, _, _, _, _, _, _, _, _, h⟩ | ⟨_, _, _, _, _, h⟩ | ⟨_, _, _, _, h⟩ | ⟨_, _, _, _, h⟩ <;>
    exact ⟨_, h⟩

end Sys2Proof.Machine
end

