-- ==== Sys2Proof/Laws/Host.lean ====
section
/-! SUPPORT. The host's view of a step, mappings, and the coerced memory. -/

namespace Sys2Proof.Machine

theorem advanceCore_eq {s t : State} (h : step s = .next t) : advanceCore s = t := by
  simp [advanceCore, h]

theorem step_eq_advanceCore (s : State) : step s = .next (advanceCore s) := by
  obtain ⟨t, h⟩ := step_answers_next s
  rw [h, advanceCore_eq h]

theorem advanceCore_stopped {s : State} (h : s.status ≠ .running) : advanceCore s = s :=
  advanceCore_eq (step_of_stopped h)

/-! ### Mappings -/

theorem indexKey?_lt {key : Text} {n : Nat} (h : indexKey? key = some n) : n < Config.memSize := by
  unfold indexKey? at h
  split at h
  · split at h
    · rename_i c hc
      simp only [isDigitChar, Bool.and_eq_true, decide_eq_true_eq] at hc
      simp only [Option.some.injEq, digitValue] at h
      simp only [Config.memSize]; omega
    · cases h
  · split at h
    · rename_i c d hc
      simp only [isDigitChar, Bool.and_eq_true, decide_eq_true_eq] at hc
      simp only [Option.some.injEq, digitValue] at h
      simp only [Config.memSize]; omega
    · cases h
  · cases h

/-- The entries of a resolved mapping: indices of cells, each once. -/
theorem resolveKeys_spec {p : Mapping} {entries : List (Nat × Token)} (h : resolveKeys p = some entries) :
    (∀ e ∈ entries, e.1 < Config.memSize) ∧ entries.Pairwise (fun a b => a.1 ≠ b.1) := by
  induction p generalizing entries with
  | nil => simp only [resolveKeys, Option.some.injEq] at h; subst h; simp
  | cons x rest ih =>
    unfold resolveKeys at h
    split at h
    · rename_i i es hi hes
      split at h
      · cases h
      · rename_i hnew
        simp only [Option.some.injEq] at h
        subst h
        obtain ⟨h1, h2⟩ := ih hes
        refine ⟨fun e he => ?_, List.pairwise_cons.mpr ⟨fun e he heq => hnew ?_, h2⟩⟩
        · rcases List.mem_cons.mp he with rfl | he
          exacts [indexKey?_lt hi, h1 e he]
        · exact List.any_eq_true.mpr ⟨e, he, by simpa using heq.symm⟩
    · cases h

theorem resolveKeys_bad_key {p : Mapping} (h : ∃ e ∈ p, indexKey? e.1 = none) : resolveKeys p = none := by
  induction p with
  | nil => simp at h
  | cons x rest ih =>
    obtain ⟨e, he, hk⟩ := h
    unfold resolveKeys
    rcases List.mem_cons.mp he with rfl | he
    · simp [hk]
    · rw [ih ⟨e, he, hk⟩]
      split <;> simp_all

/-- Writing a list of cells with distinct indices: what reads back where. -/
theorem Memory.peek_foldl_poke (f : Token → Cell) (entries : List (Nat × Token)) (m : Memory) :
    (∀ j, (∀ e ∈ entries, e.1 ≠ j) →
      Memory.peek (entries.foldl (fun m e => m.poke e.1 (f e.2)) m) j = m.peek j) ∧
    (entries.Pairwise (fun a b => a.1 ≠ b.1) → ∀ e ∈ entries,
      Memory.peek (entries.foldl (fun m e => m.poke e.1 (f e.2)) m) e.1 = f e.2) := by
  induction entries generalizing m with
  | nil => simp
  | cons x rest ih =>
    obtain ⟨ih1, ih2⟩ := ih (m.poke x.1 (f x.2))
    refine ⟨fun j hj => ?_, fun hd e he => ?_⟩
    · rw [List.foldl_cons, ih1 j fun e he => hj e (List.mem_cons_of_mem _ he), Memory.peek_poke,
        if_neg (hj x (List.mem_cons_self ..))]
    · obtain ⟨hx, hrest⟩ := List.pairwise_cons.mp hd
      rw [List.foldl_cons]
      rcases List.mem_cons.mp he with rfl | he
      · rw [ih1 _ fun y hy => (hx y hy).symm, Memory.peek_poke_self]
      · exact ih2 hrest e he

theorem Memory.wf_foldl_poke (f : Token → Cell) {entries : List (Nat × Token)} {m : Memory} (hm : m.wf)
    (h : ∀ e ∈ entries, e.1 < Config.memSize) : Memory.wf (entries.foldl (fun m e => m.poke e.1 (f e.2)) m) := by
  induction entries generalizing m with
  | nil => exact hm
  | cons x rest ih =>
    exact ih (Memory.wf_poke hm (h x (List.mem_cons_self ..)) _) fun e he => h e (List.mem_cons_of_mem _ he)

/-- The overrides change memory alone: one write of a coerced value for each entry (45_testbench.md R120). -/
theorem applyOverrides_eq (entries : List (Nat × Token)) (s : State) :
    applyOverrides entries s =
      s.setMem (entries.foldl (fun m e => m.poke e.1 (.num (coerce s.cfg (tokenCell e.2)))) s.mem) := by
  induction entries generalizing s with
  | nil => rfl
  | cons x rest ih => simp only [applyOverrides, List.foldl_cons] at ih ⊢; rw [ih]; rfl

theorem mappingEntries_lt (p : Mapping) : ∀ e ∈ mappingEntries p, e.1 < Config.memSize := by
  unfold mappingEntries
  cases h : resolveKeys p with
  | none => simp
  | some entries => exact (resolveKeys_spec h).1

/-! ### Coerced memory -/

theorem Memory.wf_coerced (cfg : Config) (m : Memory) : (m.coerced cfg).wf := by
  refine ⟨List.Pairwise.map _ (fun a b h => h) List.pairwise_lt_range, fun e he => ?_⟩
  obtain ⟨i, hi, rfl⟩ := List.mem_map.mp he
  exact ⟨List.mem_range.mp hi, by simp⟩

theorem Memory.peek_map_of_mem (f : Nat → Cell) {l : List Nat} {i : Nat} (h : i ∈ l) :
    Memory.peek (l.map fun k => (k, f k)) i = f i := by
  induction l with
  | nil => simp at h
  | cons k rest ih =>
    rw [List.map_cons, Memory.peek_cons]
    by_cases hk : k = i
    · simp [hk]
    · rw [if_neg hk]
      exact ih ((List.mem_cons.mp h).resolve_left (Ne.symm hk))

theorem Memory.peek_map_of_not_mem (f : Nat → Cell) {l : List Nat} {i : Nat} (h : i ∉ l) :
    Memory.peek (l.map fun k => (k, f k)) i = .empty :=
  Memory.peek_eq_empty fun e he hei => by
    obtain ⟨k, hk, rfl⟩ := List.mem_map.mp he
    exact h (hei ▸ hk)

/-- Every cell of the coerced memory is `Num` of its coerced value. -/
theorem Memory.peek_coerced (cfg : Config) (m : Memory) (i : Nat) :
    (m.coerced cfg).peek i = if i < Config.memSize then .num (coerce cfg (m.peek i)) else .empty := by
  unfold Memory.coerced
  by_cases h : i < Config.memSize
  · rw [if_pos h, Memory.peek_map_of_mem (fun k => .num (coerce cfg (m.peek k))) (List.mem_range.mpr h)]
  · rw [if_neg h, Memory.peek_map_of_not_mem (fun k => .num (coerce cfg (m.peek k))) (by simpa using h)]

/-- Writing an integer commutes with coercing the memory. -/
theorem Memory.coerced_poke (cfg : Config) (m : Memory) {i : Nat} (h : i < Config.memSize) (v : Int) :
    (m.poke i (.num v)).coerced cfg = (m.coerced cfg).poke i (.num v) := by
  refine Memory.eq_of_peek_eq (Memory.wf_coerced _ _) (Memory.wf_poke (Memory.wf_coerced _ _) h _) fun j => ?_
  rw [Memory.peek_coerced, Memory.peek_poke, Memory.peek_poke, Memory.peek_coerced]
  by_cases hj : i = j
  · subst hj; simp [h]
  · simp [hj]

@[simp] theorem State.coerced_memRead (s : State) (i : Int) : s.coerced.memRead i = s.memRead i := by
  cases h : inRange i
  · rw [State.memRead_of_not_inRange _ h, State.memRead_of_not_inRange _ h]
  · rw [State.memRead_of_inRange _ h, State.memRead_of_inRange _ h]
    simp only [State.coerced, State.setMem_mem, State.setMem_cfg, Memory.peek_coerced, if_pos (toNat_lt_memSize h),
      coerce_num]

end Sys2Proof.Machine
end

