-- ==== Sys2Proof/Laws/PerInstr.lean ====
section
/-! SUPPORT. Facts stated once per instruction constructor: an instruction is well formed under a configuration exactly
when its opcode is in that configuration's valid set (30_encoding.md R62, R64). -/

namespace Sys2Proof

/-- Well-formedness and the valid set agree on the instruction. -/
def Laws.EncodedOpcode.Statement (i : Instr) : Prop :=
  ∀ cfg : Config, i.wellFormed cfg = true ↔ i.opcode.code ∈ validSet cfg

theorem Laws.EncodedOpcode.stop : Statement .stop := fun _ => (Instr.code_mem_validSet _).symm
theorem Laws.EncodedOpcode.addi (imm : Int) : Statement (.addi imm) := fun _ => (Instr.code_mem_validSet _).symm
theorem Laws.EncodedOpcode.subi (imm : Int) : Statement (.subi imm) := fun _ => (Instr.code_mem_validSet _).symm
theorem Laws.EncodedOpcode.add (addr : Int) : Statement (.add addr) := fun _ => (Instr.code_mem_validSet _).symm
theorem Laws.EncodedOpcode.sub (addr : Int) : Statement (.sub addr) := fun _ => (Instr.code_mem_validSet _).symm
theorem Laws.EncodedOpcode.mul (addr : Int) : Statement (.mul addr) := fun _ => (Instr.code_mem_validSet _).symm
theorem Laws.EncodedOpcode.div (addr : Int) : Statement (.div addr) := fun _ => (Instr.code_mem_validSet _).symm
theorem Laws.EncodedOpcode.jpos (target : Int) : Statement (.jpos target) := fun _ => (Instr.code_mem_validSet _).symm
theorem Laws.EncodedOpcode.jzero (target : Int) : Statement (.jzero target) := fun _ => (Instr.code_mem_validSet _).symm
theorem Laws.EncodedOpcode.store (addr : Int) : Statement (.store addr) := fun _ => (Instr.code_mem_validSet _).symm
theorem Laws.EncodedOpcode.load (addr : Int) : Statement (.load addr) := fun _ => (Instr.code_mem_validSet _).symm

end Sys2Proof
end

