-- ==== Sys2Proof/Laws/Text.lean ====
section
/-! SUPPORT. Texts under lowering, blanks, digits, and the numbers that digits spell. -/

namespace Sys2Proof

/-! ### Lowering (30_encoding.md R58) -/

theorem lowerChar_toNat (c : Char) :
    (lowerChar c).toNat = if 65 ≤ c.toNat ∧ c.toNat ≤ 90 then c.toNat + 32 else c.toNat := by
  unfold lowerChar
  by_cases h : 65 ≤ c.toNat ∧ c.toNat ≤ 90
  · rw [if_pos h, if_pos (by simpa using h), Char.toNat_ofNat, if_pos]
    simp [Nat.isValidChar]; omega
  · rw [if_neg h, if_neg (by simpa using h)]

theorem isDigitChar_iff (c : Char) : isDigitChar c = true ↔ 48 ≤ c.toNat ∧ c.toNat ≤ 57 := by
  simp [isDigitChar]

theorem isBlankChar_iff (c : Char) : isBlankChar c = true ↔ c.toNat = 32 ∨ c.toNat = 9 := by
  simp [isBlankChar]

@[simp] theorem isDigitChar_lowerChar (c : Char) : isDigitChar (lowerChar c) = isDigitChar c := by
  rw [Bool.eq_iff_iff, isDigitChar_iff, isDigitChar_iff, lowerChar_toNat]
  split <;> omega

@[simp] theorem isBlankChar_lowerChar (c : Char) : isBlankChar (lowerChar c) = isBlankChar c := by
  rw [Bool.eq_iff_iff, isBlankChar_iff, isBlankChar_iff, lowerChar_toNat]
  split <;> omega

@[simp] theorem asciiLower_append (x y : Text) : asciiLower (x ++ y) = asciiLower x ++ asciiLower y := List.map_append ..
@[simp] theorem length_asciiLower (x : Text) : (asciiLower x).length = x.length := List.length_map ..

@[simp] theorem isBlank_asciiLower (x : Text) : isBlank (asciiLower x) = isBlank x := by
  induction x with
  | nil => rfl
  | cons c r ih => simp only [isBlank, asciiLower, List.map_cons, List.all_cons, isBlankChar_lowerChar] at ih ⊢; rw [ih]

@[simp] theorem hasDigit_asciiLower (x : Text) : hasDigit (asciiLower x) = hasDigit x := by
  induction x with
  | nil => rfl
  | cons c r ih => simp only [hasDigit, asciiLower, List.map_cons, List.any_cons, isDigitChar_lowerChar] at ih ⊢; rw [ih]

/-! ### Blanks and digits (30_encoding.md R59) -/

theorem not_isBlankChar_of_isDigitChar {c : Char} (h : isDigitChar c = true) : isBlankChar c = false := by
  rw [isDigitChar_iff] at h
  rw [← Bool.not_eq_true, isBlankChar_iff]
  omega

theorem dropWhile_blank_append {front y : Text} (hf : isBlank front = true)
    (hy : ∀ c ∈ y.head?, isBlankChar c = false) : (front ++ y).dropWhile isBlankChar = y := by
  induction front with
  | nil =>
    cases y with
    | nil => rfl
    | cons c r => simp [hy c (by simp)]
  | cons c r ih =>
    simp only [isBlank, List.all_cons, Bool.and_eq_true] at hf
    simp only [List.cons_append, List.dropWhile_cons, hf.1, if_true]
    exact ih hf.2

/-- Digits followed by blanks split where the digits end. -/
theorem split_digits_blank {ds back : Text} (hd : ds.all isDigitChar = true) (hb : isBlank back = true) :
    (ds ++ back).takeWhile isDigitChar = ds ∧ (ds ++ back).dropWhile isDigitChar = back := by
  induction ds with
  | nil =>
    cases back with
    | nil => exact ⟨rfl, rfl⟩
    | cons c r =>
      have hc : isBlankChar c = true := by
        simp only [isBlank, List.all_cons, Bool.and_eq_true] at hb
        exact hb.1
      have : isDigitChar c = false := by
        by_contra hn
        rw [not_isBlankChar_of_isDigitChar (Bool.not_eq_false _ ▸ hn)] at hc
        cases hc
      simp [this]
  | cons c r ih =>
    simp only [List.all_cons, Bool.and_eq_true] at hd
    simp [hd.1, ih hd.2]

/-! ### Decimal spellings (30_encoding.md R72) -/

theorem isDigitChar_of_mem_toDigits {n : Nat} {c : Char} (h : c ∈ Nat.toDigits 10 n) : isDigitChar c = true := by
  have := Nat.isDigit_of_mem_toDigits (by omega) (by omega) h
  simp only [Char.isDigit, Bool.and_eq_true, decide_eq_true_eq, UInt32.le_iff_toNat_le] at this
  exact (isDigitChar_iff c).mpr this

theorem toDigits_ne_nil (n : Nat) : Nat.toDigits 10 n ≠ [] := fun h => by
  have := @Nat.length_toDigits_pos 10 n
  simp [h] at this

/-- The digits of a number spell it. -/
theorem digitsValue_toDigits (n : Nat) : digitsValue (Nat.toDigits 10 n) = n := by
  induction n using Nat.strongRecOn with
  | ind n ih =>
    rw [Nat.toDigits_eq_if (by omega)]
    split
    · rename_i h
      simp [digitsValue, digitValue, Nat.toNat_digitChar_of_lt_ten h]
    · have := ih (n / 10) (by omega)
      rw [digitsValue] at this ⊢
      rw [List.foldl_append, this]
      simp [digitValue, Nat.toNat_digitChar_of_lt_ten (Nat.mod_lt n (by omega : 10 > 0))]
      omega

end Sys2Proof
end

