-- ==== Sys2Proof/Tests/Slice0.lean ====
section
/-! SUPPORT. The model's own tests: ill-formed terms refused, words of the opcode map decoded, the spec's vectors
(95_test_vectors.md) run for one step, and for each statement with hypotheses a state that meets them. -/

namespace Sys2Proof.Tests
open Sys2Proof.Machine

/-- A running core with some cells. -/
def mk (pc acc : Int) (cells : Memory) (ext : Bool := false) (dv : Bool := false) : State :=
  { acc := acc, pc := pc, status := .running, mem := cells, cfg := Config.canonical ext dv }

/-- The next state of a result, for `decide`. -/
def nextOf : Result → Option State
  | .next t => some t
  | .fault r => nomatch r
  | .refused _ => none

def lOAD : Text := ['L', 'O', 'A', 'D']

/-! ### Well-formedness refuses -/

theorem test_mul_illFormed_in_base : (Instr.mul 3).wellFormed (Config.canonical false true) = false := by decide
theorem test_div_illFormed_in_base : (Instr.div 3).wellFormed (Config.canonical false true) = false := by decide
theorem test_div_illFormed_outside_validSet : (Instr.div 3).wellFormed (Config.canonical true false) = false := by decide
theorem test_div_wellFormed_with_flag : (Instr.div 3).wellFormed (Config.canonical true true) = true := by decide
/-- The canonical table of a dialect with the name of one code taken out and an entry put in. -/
def renamed (ext : Bool) (out : Int) (entry : Text × Int) : Config :=
  { Config.canonical ext true with mnemonics := entry :: (canonicalMnemonics ext).filter fun e => e.2 != out }

theorem test_config_accepts_other_spelling : (renamed false 161 (['l'], 161)).wellFormed = true := by decide
theorem test_config_refuses_upper_key : (renamed false 161 (['L'], 161)).wellFormed = false := by decide
theorem test_config_refuses_foreign_code : (renamed true 162 (['l'], 162)).wellFormed = false := by decide
theorem test_config_refuses_mul_in_base : (renamed false 52 (['m', 'u', 'l'], 52)).wellFormed = false := by decide
theorem test_config_refuses_key_twice : (renamed false 160 (['l', 'o', 'a', 'd'], 160)).wellFormed = false := by decide
theorem test_config_refuses_two_names : (renamed false 162 (['l'], 161)).wellFormed = false := by decide
theorem test_config_refuses_unnamed_code :
    (Config.mk false false []).wellFormed = false ∧
    (Config.mk true true (canonicalMnemonics false)).wellFormed = false := by decide
theorem test_config_canonical_wellFormed :
    ∀ e d : Bool, (Config.canonical e d).wellFormed = true := by decide
theorem test_memory_refuses_unsorted : ¬ Memory.wf [(5, .num 1), (3, .num 1)] := by decide
theorem test_memory_refuses_twice : ¬ Memory.wf [(5, .num 1), (5, .num 2)] := by decide
theorem test_memory_refuses_listed_empty : ¬ Memory.wf [(5, .empty)] := by decide
theorem test_memory_refuses_100 : ¬ Memory.wf [(100, .num 1)] := by decide
theorem test_reset_memory_wf : State.reset.mem.wf := by decide
theorem test_keys_refused : ∀ k ∈ [['1', '0', '0'], ['-', '1'], ['0', '7'], [], ['x'], [' ', '7']],
    indexKey? k = none := by decide
theorem test_keys_accepted : indexKey? ['0'] = some 0 ∧ indexKey? ['7'] = some 7 ∧ indexKey? ['9', '9'] = some 99 := by
  decide
theorem test_program_refuses_key_twice : resolveKeys [(['7'], .num 1), (['7'], .num 2)] = none := by decide
theorem test_case_illFormed : (TestCase.mk [(['1', '5', '0'], .num 1)] []).wellFormed = false := by decide

/-! ### Every constructor's word (30_encoding.md R64; opcode_table.json) -/

theorem test_decode_stop : decodeCells (Config.canonical false false) [.num 0] = .instr .stop [] := by decide
theorem test_decode_addi : decodeCells (Config.canonical false false) [.num 44, .num (-8)] = .instr (.addi (-8)) [] := by decide
theorem test_decode_subi : decodeCells (Config.canonical false false) [.num 45, .num 1] = .instr (.subi 1) [] := by decide
theorem test_decode_add : decodeCells (Config.canonical false false) [.num 50, .num 41] = .instr (.add 41) [] := by decide
theorem test_decode_sub : decodeCells (Config.canonical false false) [.num 51, .num 20] = .instr (.sub 20) [] := by decide
theorem test_decode_mul : decodeCells (Config.canonical true false) [.num 52, .num 31] = .instr (.mul 31) [] := by decide
theorem test_decode_div : decodeCells (Config.canonical true true) [.num 53, .num 21] = .instr (.div 21) [] := by decide
theorem test_decode_jpos : decodeCells (Config.canonical false false) [.num 127, .num 2] = .instr (.jpos 2) [] := by decide
theorem test_decode_jzero : decodeCells (Config.canonical false false) [.num 128, .num 99] = .instr (.jzero 99) [] := by decide
theorem test_decode_store : decodeCells (Config.canonical false false) [.num 160, .num 40] = .instr (.store 40) [] := by decide
theorem test_decode_load : decodeCells (Config.canonical false false) [.num 161, .num 99] = .instr (.load 99) [] := by decide
theorem test_decode_text : decodeCells (Config.canonical false false)
    [.text ['L', 'o', 'A', 'd'], .text ['+', '0', '7', ' ']] = .instr (.load 7) [] := by decide
theorem test_decode_rejects_by_name :
    decodeCells (Config.canonical false false) [.num 52, .num 1] = .invalidOpcode 52 ∧
    decodeCells (Config.canonical true false) [.num 53, .num 1] = .invalidOpcode 53 ∧
    decodeCells (Config.canonical true true) [.num (-1)] = .invalidOpcode (-1) ∧
    decodeCells (Config.canonical true true) [.num 162] = .invalidOpcode 162 ∧
    decodeCells (Config.canonical true true) [] = .noOpcodeCell ∧
    decodeCells (Config.canonical true true) [.num 44] = .noOperandCell := by decide
theorem test_decodeTableWord_rows :
    [0, 44, 45, 50, 51, 52, 53, 127, 128, 160, 161, 7].map (decodeTableWord 8) =
      [some .stop, some (.addi 0), some (.subi 0), some (.add 0), some (.sub 0), some (.mul 0), some (.div 0),
        some (.jpos 0), some (.jzero 0), some (.store 0), some (.load 0), none] := by decide
theorem test_withFetchWord_fetches_every_row :
    [0, 44, 45, 50, 51, 52, 53, 127, 128, 160, 161].map (fun w => fetch (State.reset.withFetchWord 8 w)) =
      [.instr .stop, .instr (.addi 0), .instr (.subi 0), .instr (.add 0), .instr (.sub 0), .instr (.mul 0),
        .instr (.div 0), .instr (.jpos 0), .instr (.jzero 0), .instr (.store 0), .instr (.load 0)] := by decide

/-! ### Coercion (95_test_vectors.md V-C) -/

theorem test_coerce_vectors_base :
    [Cell.empty, .text [], .text [' ', ' '], .text lOAD, .text [' ', 'l', 'o', 'a', 'd'], .text ['0', '0', '7'],
      .text ['-', '1', '2'], .text ['+', '3'], .text [' ', '4', '2', ' '], .text ['a', 'b', 'c'],
      .text ['M', 'U', 'L'], .text ['d', 'i', 'v'], .num (-5)].map (coerce (Config.canonical false false)) =
      [0, 0, 0, 161, 0, 7, -12, 3, 42, 0, 0, 0, -5] := by decide
theorem test_coerce_vectors_ext :
    [Cell.text ['M', 'U', 'L'], .text ['d', 'i', 'v']].map (coerce (Config.canonical true false)) = [52, 53] := by decide
theorem test_coerce_open_text : coerce (Config.canonical false false) (.text ['1', '2', 'a', 'b', 'c']) =
    Config.freeCoerceOther ['1', '2', 'a', 'b', 'c'] := by rfl
theorem test_resolve_vectors :
    resolve (Config.canonical true false) (.num 52) = some 52 ∧ resolve (Config.canonical false false) (.num 52) = none ∧
    resolve (Config.canonical true false) (.text ['D', 'I', 'V']) = none ∧
    resolve (Config.canonical true true) (.text ['D', 'I', 'V']) = some 53 ∧
    resolve (Config.canonical true true) .empty = some 0 := by decide

/-! ### One step each (95_test_vectors.md section 3) -/

theorem test_V_ST_2 : nextOf (step (mk 10 5 [(10, .num 160), (11, .text ['1', '1'])])) =
    some (mk 12 5 [(10, .num 160), (11, .num 5)]) := by decide
theorem test_V_ST_3 : nextOf (step (mk 10 5 [(10, .num 160), (11, .num (-1))])) =
    some { mk 10 5 [(10, .num 160), (11, .num (-1))] with status := .faulted .dataWrite (-1) } := by decide
theorem test_V_LD_3 : nextOf (step (mk 0 0 [(0, .text lOAD), (1, .num 50), (50, .text ['s', 't', 'o', 'r', 'e'])])) =
    some (mk 2 160 [(0, .text lOAD), (1, .num 50), (50, .text ['s', 't', 'o', 'r', 'e'])]) := by decide
theorem test_V_LD_5 : nextOf (step (mk 0 3 [(0, .num 161), (1, .num 100)])) =
    some { mk 0 3 [(0, .num 161), (1, .num 100)] with status := .faulted .dataRead 100 } := by decide
theorem test_V_AI_2 : nextOf (step (mk 0 1 [(0, .num 44), (1, .text ['s', 't', 'o', 'r', 'e'])])) =
    some (mk 2 161 [(0, .num 44), (1, .text ['s', 't', 'o', 'r', 'e'])]) := by decide
theorem test_V_AI_3 : nextOf (step (mk 0 1000000000000000000000000000000
    [(0, .num 44), (1, .num 1000000000000000000000000000000)])) =
    some (mk 2 2000000000000000000000000000000 [(0, .num 44), (1, .num 1000000000000000000000000000000)]) := by decide
theorem test_V_SI_2 : nextOf (step (mk 0 0 [(0, .num 45), (1, .num 1)])) =
    some (mk 2 (-1) [(0, .num 45), (1, .num 1)]) := by decide
theorem test_V_AD_1 : nextOf (step (mk 2 7 [(2, .num 50), (3, .num 41), (41, .num (-3))])) =
    some (mk 4 4 [(2, .num 50), (3, .num 41), (41, .num (-3))]) := by decide
theorem test_V_SB_1 : nextOf (step (mk 0 3 [(0, .num 51), (1, .num 20), (20, .num 10)])) =
    some (mk 2 (-7) [(0, .num 51), (1, .num 20), (20, .num 10)]) := by decide
theorem test_V_MU_2 : nextOf (step (mk 0 (-3) [(0, .num 52), (1, .num 9), (9, .num (-4))] true)) =
    some (mk 2 12 [(0, .num 52), (1, .num 9), (9, .num (-4))] true) := by decide
theorem test_V_MU_5 : nextOf (step (mk 0 3 [(0, .num 52), (1, .num 9), (9, .num 4)])) =
    some { mk 0 3 [(0, .num 52), (1, .num 9), (9, .num 4)] with status := .halted } := by decide
theorem test_V_DIV_1 : nextOf (step (mk 2 (-7) [(2, .num 53), (3, .num 21), (21, .num 2)] true true)) =
    some (mk 4 (-4) [(2, .num 53), (3, .num 21), (21, .num 2)] true true) := by decide
theorem test_V_DIV_3 : nextOf (step (mk 0 9 [(0, .num 53), (1, .num 22)] true true)) =
    some (mk 2 9 [(0, .num 53), (1, .num 22)] true true) := by decide
theorem test_V_JP_1 : nextOf (step (mk 4 4 [(4, .num 127), (5, .num 2)])) =
    some (mk 2 4 [(4, .num 127), (5, .num 2)]) := by decide
theorem test_V_JP_3 : nextOf (step (mk 4 (-1) [(4, .num 127), (5, .num 2)])) =
    some (mk 6 (-1) [(4, .num 127), (5, .num 2)]) := by decide
theorem test_V_JZ_1 : nextOf (step (mk 10 0 [(10, .num 128), (11, .num 99)])) =
    some (mk 99 0 [(10, .num 128), (11, .num 99)]) := by decide
theorem test_V_JZ_2 : nextOf (step (mk 10 (-2) [(10, .num 128), (11, .num 99)])) =
    some (mk 12 (-2) [(10, .num 128), (11, .num 99)]) := by decide
theorem test_V_SP_3 : nextOf (step (mk 99 0 [(99, .text ['S', 'T', 'O', 'P'])])) =
    some { mk 99 0 [(99, .text ['S', 'T', 'O', 'P'])] with status := .halted } := by decide
theorem test_V_F_3_and_4 :
    nextOf (step (mk (-1) 0 [])) = some { mk (-1) 0 [] with status := .faulted .fetchOpcode (-1) } ∧
    nextOf (step (mk 99 1 [(99, .num 128)])) =
      some { mk 99 1 [(99, .num 128)] with status := .faulted .fetchOperand 100 } := by decide

/-! ### Runner and harness (95_test_vectors.md section 4) -/

theorem test_load_then_reset :
    expandProgram [(['9', '9'], .num 5), (['0'], .text lOAD)] = some [(0, .text lOAD), (99, .num 5)] := by decide
theorem test_override_coerced :
    (applyOverrides [(99, .text ['A', 'D', 'D', 'I'])] (mk 0 0 [])).mem = [(99, .num 44)] := by decide
theorem test_score_half :
    score [⟨true, [], []⟩, ⟨false, [], []⟩] = some (mkRat 1 2) ∧ score [] = none := by decide
theorem test_case_end : caseEnd (mk 0 0 []) = .stepBudgetExceeded ∧
    caseEnd { mk 0 0 [] with status := .halted } = .halted := by decide

/-! ### Witnesses: for each statement with hypotheses, states and operands that meet them, clause by clause -/

theorem test_witness_StopHaltsTheCore :
    (mk 99 3 [(99, .text ['S', 'T', 'O', 'P'])]).memRead 99 = some 0 ∧ (mk 99 3 []).status = .running ∧
    inRange (mk 100 0 []).pc = false ∧ inRange (mk (-1) 0 []).pc = false ∧
    lookupMnemonic (Config.canonical false false) ['f', 'o', 'o'] = none ∧ decimalLiteral? ['f', 'o', 'o'] = none ∧
    coerceOther ['f', 'o', 'o'] = 0 := by decide
theorem test_witness_AddiAddsTheImmediate : (mk 98 5 [(98, .num 44), (99, .num (-8))]).At 44 (-8) := by decide
theorem test_witness_SubiSubtractsTheImmediate : (mk 98 1 [(98, .num 45), (99, .num 1)]).At 45 1 := by decide
theorem test_witness_AddAddsTheCell :
    inRange 0 = true ∧ inRange 99 = true ∧ inRange (-1) = false ∧ inRange 100 = false ∧
    (mk 2 7 [(2, .num 50), (3, .num 3)]).At 50 3 ∧ (mk 2 7 [(2, .num 50), (3, .num 2)]).At 50 2 ∧
    (mk 0 0 []).mem.cell? 99 = some .empty ∧
    (mk 0 0 [(9, .text lOAD)]).mem.cell? 9 = some (.text lOAD) ∧ isBlank lOAD = false ∧
    lookupMnemonic (mk 0 0 []).cfg lOAD = some 161 := by decide
theorem test_witness_SubSubtractsTheCell :
    (mk 0 3 [(0, .num 51), (1, .num 99), (99, .num 3)]).At 51 99 ∧
    (mk 0 3 [(0, .num 51), (1, .num 99), (99, .num 3)]).valueAt 99 = 3 ∧ (mk 0 3 []).mem.cell? 0 = some .empty := by
  decide
theorem test_witness_MulMultipliesByTheCell :
    (mk 0 3 [(0, .num 52), (1, .num 99)] true).At 52 99 ∧ (mk 0 3 [] true).cfg.extended = true ∧
    (mk 0 3 [(0, .num 52)]).memRead 0 = some 52 ∧ (mk 0 3 []).cfg.extended = false ∧
    (mk 0 3 []).mem.cell? 99 = some .empty := by decide
theorem test_witness_DivFloorsOrKeeps :
    (mk 0 (-7) [(0, .num 53), (1, .num 99), (99, .num (-7))] true true).At 53 99 ∧
    (mk 0 (-7) [(99, .num (-7))]).valueAt 99 = -7 ∧ (mk 0 (-7) []).valueAt 99 = 0 ∧ (mk 0 4 [(9, .num 1)]).valueAt 9 = 1 ∧
    ((mk 0 1 [(0, .num 53)] true false).cfg.extended && (mk 0 1 [(0, .num 53)] true false).cfg.divInValidSet) = false ∧
    (mk 0 1 [(0, .num 53)] true false).memRead 0 = some 53 ∧
    ((mk 0 1 [(0, .num 53)] false true).cfg.extended && (mk 0 1 [(0, .num 53)] false true).cfg.divInValidSet) = false ∧
    (mk 0 0 []).mem.cell? 0 = some .empty := by decide
theorem test_witness_JposBranchesOnPositive :
    (0 : Int) < (mk 4 1 []).acc ∧ (mk 4 0 []).acc ≤ 0 ∧ (mk 4 1 [(4, .num 127), (5, .num 4)]).At 127 4 := by decide
theorem test_witness_JzeroBranchesOnZero :
    (mk 4 0 []).acc = 0 ∧ (mk 4 (-1) []).acc ≠ 0 ∧ (mk 4 0 [(4, .num 128), (5, .num 4)]).At 128 4 := by decide
theorem test_witness_StoreWritesTheAccumulator :
    inRange 0 = true ∧ inRange 99 = true ∧ inRange 100 = false ∧ inRange (-1) = false ∧
    (mk 98 7 [(98, .num 160), (99, .num 99)]).At 160 99 := by decide
theorem test_witness_LoadCopiesTheCell :
    (mk 0 0 [(0, .num 161), (1, .num 1)]).At 161 1 ∧ (mk 0 0 [(0, .num 161)]).At 161 0 ∧
    (mk 0 0 [(9, .text ['f', 'o', 'o'])]).mem.cell? 9 = some (.text ['f', 'o', 'o']) ∧ isBlank ['f', 'o', 'o'] = false ∧
    lookupMnemonic (mk 0 0 []).cfg ['f', 'o', 'o'] = none ∧ decimalLiteral? ['f', 'o', 'o'] = none ∧
    lookupMnemonic (mk 0 0 []).cfg lOAD = some 161 := by decide
theorem test_witness_DivisionRoundsTowardMinusInfinity :
    floorDiv (-1) 3 = -1 ∧ floorDiv 7 (-2) = -4 ∧ (0 : Int) < 3 ∧ (-2 : Int) < 0 := by decide
theorem test_witness_AccumulatorInstructionsFrame :
    nextOf (exec (.addi 1) (mk 0 0 [])) = some (mk 2 1 []) ∧ nextOf (exec (.load 99) (mk 0 3 [])) = some (mk 2 0 []) ∧
    nextOf (exec (.load 100) (mk 0 3 [])) = some { mk 0 3 [] with status := .faulted .dataRead 100 } := by decide
theorem test_witness_BranchAndStopFrame :
    nextOf (exec (.jpos 7) (mk 0 1 [])) = some (mk 7 1 []) ∧
    nextOf (exec .stop (mk 0 1 [])) = some { mk 0 1 [] with status := .halted } := by decide
theorem test_witness_StoreFrame :
    nextOf (exec (.store 99) (mk 0 1 [])) = some (mk 2 1 [(99, .num 1)]) ∧
    nextOf (exec (.store (-1)) (mk 0 1 [])) = some { mk 0 1 [] with status := .faulted .dataWrite (-1) } := by decide
theorem test_witness_StepRunsTheDecodedInstruction :
    decodeCells (mk 98 0 []).cfg ((mk 98 0 [(98, .num 44), (99, .num 1)]).mem.cellsFrom 98) = .instr (.addi 1) [] := by
  decide
theorem test_witness_StepRunsTheEncodedInstruction :
    (Instr.addi 1).wellFormed (mk 98 0 []).cfg = true ∧
    (mk 98 0 [(98, .num 44), (99, .num 1)]).mem.cell? 98 = some (.num (Instr.addi 1).opcode.code) ∧
    (mk 98 0 [(98, .num 44), (99, .num 1)]).mem.cell? (98 + 1) = some (.num 1) ∧
    (mk 99 0 [(99, .num 0)]).mem.cell? 99 = some (.num Instr.stop.opcode.code) ∧ Instr.stop.operand? = none := by decide
theorem test_witness_StatusCheckThenOpcodeFetch :
    ({ mk 0 0 [] with status := .halted }).status ≠ .running ∧ (mk (-1) 0 []).pc < 0 ∧ 100 ≤ (mk 100 0 []).pc ∧
    0 ≤ (mk 99 0 []).pc ∧ (mk 99 0 []).pc < 100 ∧ (mk 99 0 []).valueAt 99 = 0 ∧
    (7 : Int) ∉ validSet (mk 0 0 []).cfg ∧ (mk 0 0 [(0, .num 7)]).valueAt 0 = 7 ∧
    (mk 98 0 [(98, .num 44)]).valueAt 98 = 44 ∧ (44 : Int) ∈ validSet (mk 98 0 []).cfg ∧
    (mk 98 0 [(98, .num 44)]).memRead (98 + 1) = some 0 := by decide
theorem test_witness_HaltCheckComesBeforeTheOperand :
    (mk 99 0 [(99, .num 7)]).memRead 99 = some 7 ∧ (7 : Int) ∉ validSet (mk 99 0 []).cfg ∧
    (mk 99 0 []).memRead 99 = some 0 := by decide
theorem test_witness_OperandFetchOutOfRangeFaults :
    (mk 99 1 [(99, .num 128)]).memRead 99 = some 128 ∧ (128 : Int) ∈ validSet (mk 99 1 []).cfg ∧
    inRange (99 + 1) = false ∧ (mk 98 0 [(98, .num 44)]).At 44 0 := by decide
theorem test_witness_StepOutcomePriority :
    ∃ s t : State, s.status = .running ∧ step s = .next t ∧ t.status = .halted :=
  ⟨mk 0 0 [], _, rfl, rfl, rfl⟩
theorem test_witness_StepWritesAtMostOnePlace :
    ∃ s t : State, step s = .next t ∧ t.mem.cell? 99 ≠ s.mem.cell? 99 :=
  ⟨mk 0 5 [(0, .num 160), (1, .num 99)], mk 2 5 [(0, .num 160), (1, .num 99), (99, .num 5)], rfl, by decide⟩
theorem test_witness_OnlyStoreChangesACell :
    ∃ s t : State, step s = .next t ∧ t.mem.cell? 0 ≠ s.mem.cell? 0 :=
  ⟨mk 0 5 [(0, .num 160)], mk 2 5 [(0, .num 5)], rfl, by decide⟩
theorem test_witness_ProgramCounterRule :
    (mk 4 1 [(4, .num 127), (5, .num 2)]).At 127 2 ∧ (mk 4 0 [(4, .num 128), (5, .num 2)]).At 128 2 ∧
    nextOf (step (mk 0 0 [(0, .num 44)])) = some (mk 2 0 [(0, .num 44)]) ∧
    nextOf (step (mk 0 0 [])) = some { mk 0 0 [] with status := .halted } := by decide
theorem test_witness_FaultIsPreciseAndSticky :
    ∃ s t : State, s.status = .running ∧ step s = .next t ∧ t.status = .faulted .fetchOpcode 100 :=
  ⟨mk 100 0 [], _, rfl, rfl, rfl⟩
theorem test_witness_OutOfRangeTargetFaultsAtTheNextFetch :
    inRange 150 = false ∧ (mk 0 1 [(0, .num 127), (1, .num 150)]).At 127 150 ∧
    (mk 0 0 [(0, .num 128), (1, .num 100)]).At 128 100 ∧
    nextOf (step (mk 98 0 [(98, .num 44), (99, .num 5)])) = some (mk 100 5 [(98, .num 44), (99, .num 5)]) := by decide
theorem test_witness_StoredCellIsFetchedNext :
    (mk 0 44 [(0, .num 160), (1, .num 2)]).At 160 2 ∧
    nextOf (step (mk 0 44 [(0, .num 160), (1, .num 2)])) = some (mk 2 44 [(0, .num 160), (1, .num 2), (2, .num 44)]) ∧
    (mk 0 44 [(0, .num 160), (1, .num 2)]).memRead (2 + 1) = some 0 ∧ Opcode.addi.code ∈ validSet (mk 0 44 []).cfg ∧
    (mk 0 7 [(0, .num 160), (1, .num 2)]).At 160 2 ∧ (7 : Int) ∉ validSet (mk 0 7 []).cfg ∧
    (mk 0 9 [(0, .num 160), (1, .num 3), (2, .num 44)]).At 160 3 ∧
    (mk 0 9 [(0, .num 160), (1, .num 3), (2, .num 44)]).memRead 2 = some Opcode.addi.code := by decide
theorem test_witness_BranchToItselfNeverEnds :
    (mk 98 1 [(98, .num 127), (99, .num 98)]).At 127 98 ∧ (mk 0 0 [(0, .num 128)]).At 128 0 := by decide
theorem test_witness_StepKeepsTheInvariant :
    ∃ s t : State, s.Inv ∧ step s = .next t ∧ t.mem ≠ s.mem :=
  ⟨mk 0 5 [(0, .num 160), (1, .num 99)], mk 2 5 [(0, .num 160), (1, .num 99), (99, .num 5)], by decide, rfl, by decide⟩
theorem test_witness_StepKeepsTheStatusExplained :
    ∃ s t : State, s.StatusExplained ∧ step s = .next t ∧ t.status = .faulted .dataRead 100 :=
  ⟨mk 0 0 [(0, .num 161), (1, .num 100)], _, trivial, rfl, rfl⟩
theorem test_witness_StepKeepsTheConfiguration : ∃ s t : State, step s = .next t ∧ t ≠ s :=
  ⟨mk 0 0 [(0, .num 44)], mk 2 0 [(0, .num 44)], rfl, by decide⟩
theorem test_witness_CoercedMemoryIsExact : ∃ s t : State, step s = .next t ∧ s.coerced ≠ s :=
  ⟨mk 0 0 [(0, .text lOAD)], mk 2 161 [(0, .text lOAD)], rfl, by decide⟩
theorem test_witness_MemoryPrimitives :
    (mk 0 0 []).memWrite 99 (-5) = some (mk 0 0 [(99, .num (-5))]) ∧ (mk 0 0 []).memWrite 100 1 = none ∧
    (mk 0 0 []).memWrite (-1) 1 = none ∧ (mk 0 0 [(5, .text lOAD)]).mem.cell? 5 = some (.text lOAD) := by decide
theorem test_witness_ResetValues :
    (mk 7 1 []).memRead 0 = some 0 ∧ (mk 7 1 [(0, .num 7)]).memRead 0 = some 7 ∧ (7 : Int) ∉ validSet (mk 7 1 []).cfg ∧
    (mk 7 1 [(0, .text lOAD)]).memRead 0 = some 161 ∧ (161 : Int) ∈ validSet (mk 7 1 []).cfg := by decide
theorem test_witness_DecodeOfEncode : (Instr.div (-3)).wellFormed (Config.canonical true true) = true := by decide
theorem test_witness_EncodeOfDecode :
    decodeCells (Config.canonical false false) [.text lOAD, .empty, .num 7] = .instr (.load 0) [.num 7] := by decide
theorem test_witness_SpellingsDecodeAlike :
    (Instr.load (-7)).wellFormed (Config.canonical false false) = true ∧ asciiLower lOAD = (Instr.load (-7)).opcode.key ∧
    spellDecimal (.load (-7)) = [.text ['1', '6', '1'], .text ['-', '7']] := by decide
theorem test_witness_InvalidOpcodesAreTheListedOnes :
    (mk 0 0 [(0, .num 162)]).memRead 0 = some 162 ∧ (162 : Int) ∉ validSet (mk 0 0 []).cfg ∧
    (∀ op ∈ ([-1, 1, 43, 46, 49, 52, 53, 54, 126, 129, 159, 162] : List Int), op ∉ validSet (mk 0 0 []).cfg) ∧
    (∀ op ∈ ([0, 44, 45, 50, 51, 127, 128, 160, 161] : List Int), op ∈ validSet (mk 0 0 []).cfg) := by decide
theorem test_witness_ResolveChecksTheValueAlone :
    resolve (Config.canonical false false) (.text lOAD) = some 161 ∧
    coerce (Config.canonical false false) (.text lOAD) = coerce (Config.canonical false false) (.num 161) ∧
    asciiLower lOAD = asciiLower ['l', 'o', 'a', 'd'] ∧
    (lookupMnemonic (Config.canonical false false) lOAD).isSome = true := by decide
theorem test_witness_MnemonicLookupIgnoresCase :
    asciiLower lOAD = asciiLower ['l', 'O', 'a', 'D'] ∧ hasDigit lOAD = false ∧
    lookupMnemonic (Config.canonical false false) lOAD = some 161 := by decide
theorem test_witness_MnemonicLookupIgnoresCase_unlowered :
    ∀ c ∈ ['@', '[', 'a', 'z', 'É'], ¬ ('A' ≤ c ∧ c ≤ 'Z') := by simp [Char.le_def]
theorem test_witness_DecimalLiteralGrammar :
    decimalLiteral? [' ', '-', '0', '7', '\t'] = some (-7) ∧ decimalLiteral? ['-'] = none ∧
    decimalLiteral? ['1', ' ', '2'] = none ∧ decimalLiteral? [] = none := by decide
theorem test_witness_CoercionOrder :
    isBlank lOAD = false ∧ lookupMnemonic (Config.canonical false false) lOAD = some 161 ∧
    isBlank ['7'] = false ∧ lookupMnemonic (Config.canonical false false) ['7'] = none ∧ decimalLiteral? ['7'] = some 7 ∧
    isBlank ['x'] = false ∧ lookupMnemonic (Config.canonical false false) ['x'] = none ∧ decimalLiteral? ['x'] = none := by decide
theorem test_witness_CoercionOrder_blank : ∀ c ∈ [' ', '\t'], c = ' ' ∨ c = '\t' := by simp
theorem test_witness_CoercionOrder_without_digit : ∀ c ∈ ['x', '-'], ¬ ('0' ≤ c ∧ c ≤ '9') := by simp [Char.le_def]
theorem test_witness_CanonicalMnemonicTable :
    lookupMnemonic (Config.canonical true false) ['D', 'i', 'v'] = some 53 ∧
    lookupMnemonic (Config.canonical false false) ['S', 't', 'o', 'p'] = some 0 := by decide
theorem test_witness_LoadReplacesEveryCell :
    Runner.start.runInProgress = false ∧ (∀ e ∈ [(0, Token.num 1), (99, Token.text lOAD)], e.1 < 100) ∧
    [(0, Token.num 1), (99, Token.text lOAD)].Pairwise (fun x y => x.1 ≠ y.1) ∧
    decimalLiteral? ['x'] = none ∧ decimalLiteral? ['1', '0', '0'] = some 100 ∧ decimalLiteral? ['-', '1'] = some (-1) := by
  decide
theorem test_witness_HostEdits :
    Runner.start.runInProgress = false ∧ inRange 0 = true ∧ inRange 99 = true ∧ inRange 100 = false := by decide
theorem test_witness_OnlyResetLeavesAStoppedStatus :
    ∃ r q : Runner, r.core.status ≠ .running ∧ r.command (.setPc 5) = .next q ∧ r.runInProgress = false :=
  ⟨⟨{ mk 0 0 [] with status := .halted }, false, false⟩, _, by decide, rfl, rfl⟩
theorem test_witness_StepAndObserveCommands :
    ∃ t : State, step Runner.start.core = .next t ∧ Runner.start.runInProgress = false ∧ t.status ≠ .running :=
  ⟨_, rfl, rfl, by decide⟩
theorem test_witness_RunRepeatsSteps :
    (Runner.ticks 0 Runner.start.startRun).core.status = .running ∧
    (Runner.ticks 1 Runner.start.startRun).core.status ≠ .running ∧
    (Runner.ticks 2 Runner.start.startRun).runInProgress = false := by decide
theorem test_witness_OnlyAHaltRequestDuringARun :
    ∃ q : Runner, Runner.start.startRun.runInProgress = true ∧ Runner.start.startRun.command .requestHalt = .next q :=
  ⟨_, rfl, rfl⟩
theorem test_witness_CloneAndOverrides :
    resolveKeys [(['9', '9'], .num 3), (['0'], .text lOAD)] = some [(99, .num 3), (0, .text lOAD)] := by decide
theorem test_witness_CaseRunStaysInTheBudget :
    resolveKeys [(['0'], .text lOAD), (['9', '9'], .num 3)] = some [(0, .text lOAD), (99, .num 3)] ∧
    (runCase (Config.canonical false false) [] [(['0'], .num 7)]).status = .halted := by decide
theorem test_witness_CasePassesOnNamedCells :
    resolveKeys (TestCase.mk [] [(['9', '9'], .num 5)]).after = some [(99, .num 5)] := by decide
theorem test_witness_ScoreOfASuite :
    (∀ c ∈ [TestCase.mk [(['0'], .num 5)] [], TestCase.mk [] [(['9', '9'], .num 0)]], c.wellFormed = true) ∧
    [TestCase.mk [(['0'], .num 5)] [], TestCase.mk [] []][1]? = some (TestCase.mk [] []) ∧ decimalLiteral? ['1', '5', '0'] = some 150 := by decide
theorem test_witness_CasesAreIndependent :
    (∃ rep, gradeSuite (Config.canonical false false) [] ([] ++ TestCase.mk [] [] :: []) = .next rep) ∧
    Memory.values (Config.canonical false false) [] = Memory.values (Config.canonical false false) [(3, .num 0)] :=
  ⟨⟨_, if_pos (by decide)⟩, by decide⟩
theorem test_witness_HostKeepsTheInvariant :
    ∃ q : Runner, Runner.start.core.Inv ∧ Runner.start.command (.editCell 99 (.num 5)) = .next q ∧
      (Config.canonical true false).wellFormed = true ∧ q.core.mem = [(99, .num 5)] :=
  ⟨{ Runner.start with core := Runner.start.core.setMem [(99, .num 5)] }, by decide, rfl, by decide, rfl⟩

end Sys2Proof.Tests
end

section
/-! The state's own rules: the two memory primitives, the reset action, and where a step leaves the program counter
(10_state.md R23, R26, R34). -/

namespace Sys2Proof.Machine

/-! ### The step of a running core, by what stands at the program counter -/

/-- The halt check reads the opcode cell alone (40_cycle.md R80). -/
theorem step_of_halting_opcode {s : State} {op : Int} (hs : s.status = .running) (h : s.memRead s.pc = some op)
    (hop : op = 0 ∨ op ∉ validSet s.cfg) : step s = .next (s.setStatus .halted) := by
  rcases hop with rfl | hv
  · exact step_of_fetch_instr hs (fetch_stop h)
  · exact step_of_fetch_invalid hs (fetch_invalid h hv)

/-- The dispatch, once the common prefix of the step has run (00_scope.md R15). -/
theorem step_of_at {s : State} {o : Opcode} {a : Int} (ho : o ≠ .stop) (hv : o.code ∈ validSet s.cfg)
    (h : s.At o.code a) : step s = exec (o.build a) s := by
  obtain ⟨hs, hop, ha⟩ := h
  exact step_of_fetch_instr hs (fetch_instr ho hop hv ha)

/-- A branch instruction whose condition holds stands at the program counter, with target `a` (43_branch.md R103,
R104). -/
abbrev State.TakesBranch (s : State) (a : Int) : Prop := (s.At 127 a ∧ 0 < s.acc) ∨ (s.At 128 a ∧ s.acc = 0)

theorem step_of_takesBranch {s : State} {a : Int} (h : s.TakesBranch a) : step s = .next (s.setPc a) := by
  rcases h with ⟨hat, hacc⟩ | ⟨hat, hacc⟩
  · rw [step_of_at (o := .jpos) (by decide) (mem_validSet.mpr (.inl (by decide))) hat]
    simp [Opcode.build, exec, execJpos, branchIf_eq, accPositive, hacc]
  · rw [step_of_at (o := .jzero) (by decide) (mem_validSet.mpr (.inl (by decide))) hat]
    simp [Opcode.build, exec, execJzero, branchIf_eq, accZero, hacc]

/-! ### The program counter (10_state.md R26) -/

/-- Where a step of a running core can leave PC: it stays just when the core stops, and otherwise becomes the target of
a taken branch or `PC + 2`. -/
theorem step_pc_cases {s t : State} (hs : s.status = .running) (h : step s = .next t) :
    (t.status ≠ .running ∧ t.pc = s.pc) ∨ (t.status = .running ∧ t.pc = s.pc + 2) ∨
      (t.status = .running ∧ s.TakesBranch t.pc) := by
  have stops : ∀ v : Status, v ≠ .running → step s = .next (s.setStatus v) → t.status ≠ .running ∧ t.pc = s.pc := by
    intro v hv hstep
    obtain rfl : s.setStatus v = t := by simpa [hstep] using h
    exact ⟨hv, rfl⟩
  have goesOn : ∀ u : State, step s = .next u.advancePc → u.status = s.status → u.pc = s.pc →
      t.status = .running ∧ t.pc = s.pc + 2 := by
    intro u hstep hstatus hpc
    obtain rfl : u.advancePc = t := by simpa [hstep] using h
    simp [hstatus, hpc, hs]
  have branches : ∀ (c : Prop) [Decidable c] (a : Int), (c → s.TakesBranch a) →
      step s = .next (s.setPc (if c then a else s.pc + 2)) →
      (t.status = .running ∧ t.pc = s.pc + 2) ∨ (t.status = .running ∧ s.TakesBranch t.pc) := by
    intro c _ a htaken hstep
    obtain rfl : s.setPc (if c then a else s.pc + 2) = t := by simpa [hstep] using h
    by_cases hc : c
    · exact .inr ⟨hs, by simpa only [State.setPc_pc, if_pos hc] using htaken hc⟩
    · exact .inl ⟨hs, by simp [hc]⟩
  rcases step_cases s with ⟨hn, _⟩ | ⟨_, _, he⟩ | ⟨_, _, he⟩ | ⟨_, _, _, _, _, _, he⟩ | ⟨_, _, _, _, _, _, _, _, he⟩ |
    ⟨_, _, _, _, _, he⟩ | ⟨_, _, _, _, _, _, _, _, _, he⟩ | ⟨_, _, _, _, _, he⟩ | ⟨a, _, hop, ha, he⟩ |
    ⟨a, _, hop, ha, he⟩
  · exact absurd hs hn
  · exact .inl (stops _ (by simp) he)
  · exact .inl (stops _ (by simp) he)
  · exact .inl (stops _ (by simp) he)
  · exact .inl (stops _ (by simp) he)
  · exact .inl (stops _ (by simp) he)
  · exact .inr (.inl (goesOn _ he rfl rfl))
  · exact .inr (.inl (goesOn _ he rfl rfl))
  · exact .inr (branches _ a (fun hacc => .inl ⟨⟨hs, hop, ha⟩, hacc⟩) he)
  · exact .inr (branches _ a (fun hacc => .inr ⟨⟨hs, hop, ha⟩, hacc⟩) he)

/-- Settles O26: a taken branch by its own step rule, the other two clauses by the cases of PC. -/
theorem programCounterRule : Obligations.ProgramCounterRule := by
  unfold Obligations.ProgramCounterRule
  refine ⟨⟨rfl, State.resetAction_pc⟩, fun s t hs hstep => ⟨fun a htaken => ?_, fun ht hnot => ?_, fun ht => ?_⟩⟩
  · obtain rfl : s.setPc a = t := by simpa [step_of_takesBranch htaken] using hstep
    exact ⟨hs, rfl⟩
  · rcases step_pc_cases hs hstep with ⟨hn, _⟩ | ⟨_, hpc⟩ | ⟨_, htaken⟩
    · exact absurd ht hn
    · exact hpc
    · exact absurd htaken (hnot _)
  · rcases step_pc_cases hs hstep with ⟨_, hpc⟩ | ⟨hr, _⟩ | ⟨hr, _⟩
    · exact hpc
    · exact absurd hr ht
    · exact absurd hr ht

/-! ### The memory primitives (00_scope.md R13, 10_state.md R23) -/

theorem State.memRead_of_cell? {s : State} {i : Int} {c : Cell} (h : s.mem.cell? i = some c) :
    s.memRead i = some (coerce s.cfg c) := by
  simp [State.memRead, h]

/-- Settles O36: both primitives by the range check, and what a write leaves by the read-after-write rule of memory. -/
theorem memoryPrimitives : Obligations.MemoryPrimitives := by
  unfold Obligations.MemoryPrimitives
  refine ⟨fun s i v hi => ?_, fun s i v hi => ?_, fun s i c => State.memRead_of_cell?⟩
  · have hr := (inRange_iff i).mpr hi
    have hcell : (s.mem.poke i.toNat (.num v)).cell? i = some (.num v) := by simp [Memory.cell?_poke _ _ _ hr]
    exact ⟨_, s.memWrite_of_inRange hr v, hcell, State.memRead_of_cell? (s := s.setMem _) hcell,
      fun j hj => by simp [Memory.cell?_poke _ _ _ hr, hj], rfl, rfl, rfl⟩
  · have hr := (inRange_eq_false_iff i).mpr hi
    exact ⟨s.memWrite_of_not_inRange hr v, s.memRead_of_not_inRange hr⟩

/-! ### Reset (10_state.md R34, 70_reset_and_hazards.md R149) -/

@[simp] theorem State.resetAction_memRead (s : State) (i : Int) : s.resetAction.memRead i = s.memRead i := rfl

/-- Settles O37: the first step reads cell 0, and cell 1 exists, so it halts or runs the instruction in those cells. -/
theorem resetValues : Obligations.ResetValues := by
  unfold Obligations.ResetValues
  refine ⟨fun s => ⟨rfl, rfl, rfl, fun _ => rfl, rfl⟩, ⟨rfl, rfl, rfl⟩, fun s => rfl, fun s op hop => ⟨?_, ?_⟩⟩
  · exact step_of_halting_opcode s.resetAction_status hop
  · intro h0 hv
    obtain ⟨o, rfl⟩ := exists_opcode_of_mem hv
    have ho : o ≠ .stop := fun h => h0 (by rw [h]; rfl)
    have ha := s.memRead_of_inRange (i := 1) (by decide)
    exact ⟨o.build _, by rw [Opcode.build_opcode], (Opcode.build_operand? ho _).trans ha.symm,
      step_of_at ho hv ⟨s.resetAction_status, hop, ha⟩⟩

end Sys2Proof.Machine
end

section
/-! Which integers are opcodes, and the decoder as a function of the coerced cells alone (30_encoding.md R54, R62, R68,
R70). -/

namespace Sys2Proof

/-! ### The invalid opcodes (30_encoding.md R68) -/

/-- The complement of the valid set, interval by interval. -/
theorem not_mem_validSet_iff (cfg : Config) (op : Int) : op ∉ validSet cfg ↔
    op < 0 ∨ (1 ≤ op ∧ op ≤ 43) ∨ (46 ≤ op ∧ op ≤ 49) ∨ (54 ≤ op ∧ op ≤ 126) ∨ (129 ≤ op ∧ op ≤ 159) ∨ 162 ≤ op ∨
      (cfg.extended = false ∧ (op = 52 ∨ op = 53)) ∨
      (cfg.extended = true ∧ cfg.divInValidSet = false ∧ op = 53) := by
  rw [mem_validSet, mem_validBase]
  cases cfg.extended with
  | false => simp only [Bool.false_eq_true, false_and, true_and, or_false]; omega
  | true =>
    cases cfg.divInValidSet with
    | false => simp only [Bool.false_eq_true, Bool.true_eq_false, false_and, true_and, false_or, or_false]; omega
    | true => simp only [Bool.true_eq_false, false_and, true_and, or_false]; omega

/-- Settles O42: the valid set's complement, and the halt check of the step. -/
theorem invalidOpcodesAreTheListedOnes : Obligations.InvalidOpcodesAreTheListedOnes := by
  unfold Obligations.InvalidOpcodesAreTheListedOnes
  exact ⟨not_mem_validSet_iff, fun _ _ hs hop hv => Machine.step_of_halting_opcode hs hop (.inr hv)⟩

/-! ### Decoding by coerced values -/

/-- Cells that coerce to an instruction's opcode and operand decode to it, whatever their spelling. -/
theorem decodeCells_of_coerce {cfg : Config} {i : Instr} {c : Cell} {operands : List Cell} (rest : List Cell)
    (hw : i.wellFormed cfg = true) (hc : coerce cfg c = i.opcode.code)
    (ho : operands.map (coerce cfg) = i.operand?.toList) :
    decodeCells cfg (c :: operands ++ rest) = .instr i rest := by
  cases hi : i.operand? with
  | none =>
    obtain rfl := Instr.operand?_eq_none.mp hi
    obtain rfl : operands = [] := by simpa [hi] using ho
    exact decodeCells_stop rest hc
  | some a =>
    obtain ⟨d, rfl, rfl⟩ : ∃ d, operands = [d] ∧ coerce cfg d = a := by simpa [hi, List.map_eq_singleton_iff] using ho
    have hstop : i.opcode ≠ .stop := fun h => by simp [Instr.opcode_eq_stop.mp h, Instr.operand?] at hi
    have hd := decodeCells_twoCell (d :: rest) hstop hc (i.code_mem_validSet.mpr hw)
    simpa [decodeOperand, Instr.build_of_operand? hi] using hd

/-- A valid opcode cell with a cell after it always gives an instruction. -/
theorem exists_instr_of_valid_opcode {cfg : Config} {c : Cell} (d : Cell) (rest : List Cell)
    (hv : coerce cfg c ∈ validSet cfg) :
    ∃ i r, decodeCells cfg (c :: d :: rest) = .instr i r ∧ i.opcode.code = coerce cfg c := by
  obtain ⟨o, ho⟩ := exists_opcode_of_mem hv
  by_cases hs : o = .stop
  · subst hs
    exact ⟨.stop, d :: rest, decodeCells_stop _ ho, ho.symm⟩
  · exact ⟨o.build (coerce cfg d), rest, decodeCells_twoCell _ hs ho (ho ▸ hv), by rw [Opcode.build_opcode, ho]⟩

/-- Settles O43: the opcode map's two equations, and the decoder on a valid and on an invalid opcode cell. -/
theorem decodingIsTotalAndExact : Obligations.DecodingIsTotalAndExact := by
  unfold Obligations.DecodingIsTotalAndExact
  refine ⟨fun _ _ _ => opcodeOf_eq_some, fun _ _ => opcodeOf_eq_none, fun cfg c d rest => ?_⟩
  by_cases hv : coerce cfg c ∈ validSet cfg
  · exact .inl ⟨hv, exists_instr_of_valid_opcode d rest hv⟩
  · exact .inr ⟨hv, decodeCells_invalid _ hv⟩

end Sys2Proof
end

section
/-! The grammar of decimal literals (30_encoding.md R59). -/

namespace Sys2Proof

/-- The texts a sign can be, and whether they negate the number. -/
def IsSign (sign : Text) (negated : Bool) : Prop :=
  (sign = [] ∨ sign = ['+']) ∧ negated = false ∨ sign = ['-'] ∧ negated = true

/-- A number with its sign applied. -/
def applySign (negated : Bool) (n : Nat) : Int := if negated then -(n : Int) else (n : Int)

/-- What `splitSign` takes off is a sign, and the text is that sign and what it leaves. -/
theorem splitSign_spec (y : Text) : ∃ sign, y = sign ++ (splitSign y).2 ∧ IsSign sign (splitSign y).1 := by
  cases y with
  | nil => exact ⟨[], rfl, .inl ⟨.inl rfl, rfl⟩⟩
  | cons c r =>
    by_cases hminus : c.toNat = 45
    · obtain rfl : c = '-' := Char.toNat_inj.mp hminus
      exact ⟨['-'], rfl, .inr ⟨rfl, rfl⟩⟩
    · by_cases hplus : c.toNat = 43
      · obtain rfl : c = '+' := Char.toNat_inj.mp hplus
        exact ⟨['+'], rfl, .inl ⟨.inr rfl, rfl⟩⟩
      · have hsplit : splitSign (c :: r) = (false, c :: r) := by simp [splitSign, hminus, hplus]
        exact ⟨[], by rw [hsplit]; rfl, .inl ⟨.inl rfl, by rw [hsplit]⟩⟩

/-- A sign before a digit is taken off as that sign. -/
theorem splitSign_sign_digit {sign : Text} {negated : Bool} (hs : IsSign sign negated) {c : Char}
    (hc : isDigitChar c = true) (r : Text) : splitSign (sign ++ c :: r) = (negated, c :: r) := by
  rcases hs with ⟨rfl | rfl, rfl⟩ | ⟨rfl, rfl⟩
  · have hrange := (isDigitChar_iff c).mp hc
    have hminus : c.toNat ≠ 45 := by omega
    have hplus : c.toNat ≠ 43 := by omega
    simp [splitSign, hminus, hplus]
  · rfl
  · rfl

/-- No blank stands at the front of a sign before a digit. -/
theorem not_isBlankChar_head_sign_digit {sign : Text} {negated : Bool} (hs : IsSign sign negated) {c : Char}
    (hc : isDigitChar c = true) (r : Text) : ∀ b ∈ (sign ++ c :: r).head?, isBlankChar b = false := by
  rcases hs with ⟨rfl | rfl, rfl⟩ | ⟨rfl, rfl⟩
  · simpa using not_isBlankChar_of_isDigitChar hc
  · simp [isBlankChar]
  · simp [isBlankChar]

/-- Blanks, a sign, digits and blanks make a literal of the signed number. -/
theorem decimalLiteral?_of_parts {front sign digits back : Text} {negated : Bool} (hf : isBlank front = true)
    (hs : IsSign sign negated) (hne : digits ≠ []) (hd : digits.all isDigitChar = true) (hb : isBlank back = true) :
    decimalLiteral? (front ++ sign ++ digits ++ back) = some (applySign negated (digitsValue digits)) := by
  obtain ⟨c, r, rfl⟩ := List.exists_cons_of_ne_nil hne
  have hc : isDigitChar c = true := (List.all_eq_true.mp hd) c List.mem_cons_self
  have hdrop := dropWhile_blank_append hf (not_isBlankChar_head_sign_digit hs hc (r ++ back))
  have hsplit := splitSign_sign_digit hs hc (r ++ back)
  obtain ⟨htake, hafter⟩ := split_digits_blank hd hb
  simp only [List.cons_append] at htake hafter
  simp [decimalLiteral?, hdrop, hsplit, htake, hafter, hb, applySign]

/-- A text with a literal value splits into blanks, a sign, digits and blanks. -/
theorem exists_parts_of_decimalLiteral? {x : Text} {n : Int} (h : decimalLiteral? x = some n) :
    ∃ front sign digits back negated, x = front ++ sign ++ digits ++ back ∧ isBlank front = true ∧
      IsSign sign negated ∧ digits ≠ [] ∧ digits.all isDigitChar = true ∧ isBlank back = true ∧
      n = applySign negated (digitsValue digits) := by
  obtain ⟨sign, hsign, hs⟩ := splitSign_spec (x.dropWhile isBlankChar)
  simp only [decimalLiteral?, Option.ite_none_left_eq_some, Bool.or_eq_true, not_or, Bool.not_eq_true,
    Bool.not_eq_false', List.isEmpty_eq_false_iff, Option.some.injEq] at h
  obtain ⟨⟨hne, hback⟩, hn⟩ := h
  refine ⟨x.takeWhile isBlankChar, sign, _, _, _, ?_, List.all_takeWhile, hs, hne, List.all_takeWhile, hback, hn.symm⟩
  rw [List.append_assoc, List.takeWhile_append_dropWhile, List.append_assoc, ← hsign,
    List.takeWhile_append_dropWhile]

/-- Settles O46: a text built of the parts parses to them, and a text that parses is built of them. -/
theorem decimalLiteralGrammar : Obligations.DecimalLiteralGrammar := by
  unfold Obligations.DecimalLiteralGrammar
  intro x n
  constructor
  · intro h
    obtain ⟨front, sign, digits, back, negated, hx, hf, hs, hne, hd, hb, rfl⟩ := exists_parts_of_decimalLiteral? h
    refine ⟨front, sign, digits, back, hx, hf, hb, hne, hd, ?_⟩
    rcases hs with ⟨hs, rfl⟩ | ⟨hs, rfl⟩
    · exact .inl ⟨hs, rfl⟩
    · exact .inr ⟨hs, rfl⟩
  · rintro ⟨front, sign, digits, back, rfl, hf, hb, hne, hd, ⟨hs, rfl⟩ | ⟨hs, rfl⟩⟩
    · exact decimalLiteral?_of_parts hf (.inl ⟨hs, rfl⟩) hne hd hb
    · exact decimalLiteral?_of_parts hf (.inr ⟨hs, rfl⟩) hne hd hb

theorem hasDigit_of_decimalLiteral? {x : Text} {n : Int} (h : decimalLiteral? x = some n) : hasDigit x = true := by
  obtain ⟨front, sign, digits, back, _, rfl, _, _, hne, hd, _, _⟩ := exists_parts_of_decimalLiteral? h
  obtain ⟨c, r, rfl⟩ := List.exists_cons_of_ne_nil hne
  exact List.any_eq_true.mpr ⟨c, by simp, (List.all_eq_true.mp hd) c List.mem_cons_self⟩

theorem decimalLiteral?_of_no_digit {x : Text} (h : hasDigit x = false) : decimalLiteral? x = none :=
  Option.eq_none_iff_forall_ne_some.mpr fun _ hn => by simp [hasDigit_of_decimalLiteral? hn] at h

end Sys2Proof
end

section
/-! Mnemonic lookup, and coercion and resolve of texts (30_encoding.md R57, R58, R60, R61, R63). -/

namespace Sys2Proof

/-! ### Mnemonic lookup (30_encoding.md R58, R61) -/

/-- What a lookup finds is an entry of the table for the whole lowered text. -/
theorem mem_mnemonics_of_lookupMnemonic {cfg : Config} {x : Text} {code : Int}
    (h : lookupMnemonic cfg x = some code) : (asciiLower x, code) ∈ cfg.mnemonics := by
  obtain ⟨⟨key, code'⟩, hfind, rfl⟩ := Option.map_eq_some_iff.mp h
  obtain rfl : key = asciiLower x := by simpa using List.find?_some hfind
  exact List.mem_of_find?_eq_some hfind

/-- In a table with each key once, a lookup finds exactly the entries of the lowered text. -/
theorem lookupMnemonic_eq_some_iff {cfg : Config} (hkeys : (cfg.mnemonics.map Prod.fst).Nodup) {x : Text}
    {code : Int} : lookupMnemonic cfg x = some code ↔ (asciiLower x, code) ∈ cfg.mnemonics := by
  refine ⟨mem_mnemonics_of_lookupMnemonic, fun hmem => ?_⟩
  have hsome : (lookupMnemonic cfg x).isSome := by
    rw [lookupMnemonic, Option.isSome_map, List.find?_isSome]
    exact ⟨_, hmem, by simp⟩
  obtain ⟨code', hcode⟩ := Option.isSome_iff_exists.mp hsome
  have heq := List.inj_on_of_nodup_map hkeys (mem_mnemonics_of_lookupMnemonic hcode) hmem rfl
  rw [hcode, (Prod.mk.inj heq).2]

theorem nodup_canonical_keys (e : Bool) : ((canonicalMnemonics e).map Prod.fst).Nodup := by
  cases e <;> decide

theorem lookupMnemonic_canonical {e d : Bool} {x : Text} {code : Int} :
    lookupMnemonic (Config.canonical e d) x = some code ↔ (asciiLower x, code) ∈ canonicalMnemonics e :=
  lookupMnemonic_eq_some_iff (nodup_canonical_keys e)

/-- Settles O48: lookup in a table with each key once is membership, and the canonical tables are the listed ones. -/
theorem canonicalMnemonicTable : Obligations.CanonicalMnemonicTable := by
  unfold Obligations.CanonicalMnemonicTable
  exact ⟨fun _ _ _ => lookupMnemonic_canonical, fun _ _ _ => lookupMnemonic_canonical, fun _ => ⟨rfl, rfl, rfl, rfl⟩⟩

/-! ### Case (30_encoding.md R58) -/

theorem char_le_iff_toNat_le {a b : Char} : a ≤ b ↔ a.toNat ≤ b.toNat := by
  rw [Char.le_def, UInt32.le_iff_toNat_le]; rfl

theorem lowerChar_of_not_upper {c : Char} (h : ¬ ('A' ≤ c ∧ c ≤ 'Z')) : lowerChar c = c := by
  rw [char_le_iff_toNat_le, char_le_iff_toNat_le] at h
  exact Char.toNat_inj.mp ((lowerChar_toNat c).trans (if_neg h))

theorem asciiLower_of_no_upper {x : Text} (h : ∀ c ∈ x, ¬ ('A' ≤ c ∧ c ≤ 'Z')) : asciiLower x = x :=
  (List.map_congr_left fun c hc => lowerChar_of_not_upper (h c hc)).trans (List.map_id' x)

section
variable {cfg : Config} {x y : Text} (h : asciiLower x = asciiLower y)
include h

theorem lookupMnemonic_congr : lookupMnemonic cfg x = lookupMnemonic cfg y := by
  rw [lookupMnemonic, h, lookupMnemonic]

theorem isBlank_congr : isBlank x = isBlank y := by
  rw [← isBlank_asciiLower x, h, isBlank_asciiLower]

theorem hasDigit_congr : hasDigit x = hasDigit y := by
  rw [← hasDigit_asciiLower x, h, hasDigit_asciiLower]

end

/-! ### Coercion of texts (30_encoding.md R57, R60) -/

/-- Without a digit a text is no literal, and only blanks and the mnemonic table decide. -/
theorem coerceText_of_no_digit (cfg : Config) {x : Text} (h : hasDigit x = false) :
    coerceText cfg x = if isBlank x then 0 else (lookupMnemonic cfg x).getD 0 := by
  cases hb : isBlank x with
  | true => exact coerceText_blank cfg hb
  | false =>
    cases hm : lookupMnemonic cfg x with
    | some code => exact coerceText_mnemonic hb hm
    | none => exact (coerceText_other hb hm (decimalLiteral?_of_no_digit h)).trans (coerceOther_of_no_digit h)

/-- Texts without digits that differ in case alone coerce alike. -/
theorem coerceText_congr_of_no_digit {cfg : Config} {x y : Text} (h : asciiLower x = asciiLower y)
    (hd : hasDigit x = false) : coerceText cfg x = coerceText cfg y := by
  rw [coerceText_of_no_digit cfg hd, coerceText_of_no_digit cfg ((hasDigit_congr h).symm.trans hd), isBlank_congr h,
    lookupMnemonic_congr h]

/-- Mnemonics that differ in case alone coerce alike. -/
theorem coerceText_congr_of_mnemonic {cfg : Config} {x y : Text} (h : asciiLower x = asciiLower y)
    (hm : (lookupMnemonic cfg x).isSome = true) : coerceText cfg x = coerceText cfg y := by
  obtain ⟨code, hx⟩ := Option.isSome_iff_exists.mp hm
  have hy : lookupMnemonic cfg y = some code := (lookupMnemonic_congr h).symm.trans hx
  cases hb : isBlank x with
  | true => rw [coerceText_blank cfg hb, coerceText_blank cfg ((isBlank_congr h).symm.trans hb)]
  | false => rw [coerceText_mnemonic hb hx, coerceText_mnemonic ((isBlank_congr h).symm.trans hb) hy]

/-- Settles O45: lookup, blanks and digits depend on the lowered text alone, and so does coercion without digits. -/
theorem mnemonicLookupIgnoresCase : Obligations.MnemonicLookupIgnoresCase := by
  unfold Obligations.MnemonicLookupIgnoresCase
  refine ⟨rfl, fun _ => asciiLower_of_no_upper, asciiLower_append, length_asciiLower,
    fun _ _ _ => lookupMnemonic_congr, fun _ _ _ => coerceText_congr_of_no_digit,
    fun _ _ _ => mem_mnemonics_of_lookupMnemonic, fun e d => ?_⟩
  · cases e <;> exact ⟨rfl, rfl, rfl, rfl⟩

theorem isBlank_of_spaces_tabs {x : Text} (h : ∀ c ∈ x, c = ' ' ∨ c = '\t') : isBlank x = true :=
  List.all_eq_true.mpr fun c hc => by rcases h c hc with rfl | rfl <;> rfl

theorem hasDigit_eq_false {x : Text} (h : ∀ c ∈ x, ¬ ('0' ≤ c ∧ c ≤ '9')) : hasDigit x = false := by
  refine List.any_eq_false.mpr fun c hc hdigit => h c hc ?_
  rw [char_le_iff_toNat_le, char_le_iff_toNat_le]
  exact (isDigitChar_iff c).mp hdigit

/-- Settles O47: the coercion rules case by case, and a text without digit characters has no digit. -/
theorem coercionOrder : Obligations.CoercionOrder := by
  unfold Obligations.CoercionOrder
  exact fun cfg => ⟨coerce_empty cfg, coerce_num cfg, fun _ hx => coerceText_blank cfg (isBlank_of_spaces_tabs hx),
    fun _ _ => coerceText_mnemonic, fun _ _ => coerceText_literal, fun _ => coerceText_other,
    fun _ hx => coerceOther_of_no_digit (hasDigit_eq_false hx)⟩

/-! ### Resolve (30_encoding.md R63) -/

theorem resolve_eq_some_iff {cfg : Config} {c : Cell} {v : Int} :
    resolve cfg c = some v ↔ v = coerce cfg c ∧ v ∈ validSet cfg := by
  rw [resolve, Option.ite_none_right_eq_some, Option.some.injEq]
  constructor
  · rintro ⟨hv, rfl⟩
    exact ⟨rfl, hv⟩
  · rintro ⟨rfl, hv⟩
    exact ⟨hv, rfl⟩

theorem resolve_congr {cfg : Config} {c d : Cell} (h : coerce cfg c = coerce cfg d) : resolve cfg c = resolve cfg d := by
  rw [resolve, h, resolve]

/-- Settles O44: resolve is the valid set's test of the coerced value, and mnemonics coerce alike in any case. -/
theorem resolveChecksTheValueAlone : Obligations.ResolveChecksTheValueAlone := by
  unfold Obligations.ResolveChecksTheValueAlone
  exact ⟨fun _ _ _ => resolve_eq_some_iff,
    fun _ _ _ h => resolve_eq_some_iff.mpr ⟨rfl, (resolve_eq_some_iff.mp h).2⟩, fun _ _ _ => resolve_congr,
    fun _ _ _ h hm => resolve_congr (coerceText_congr_of_mnemonic h hm)⟩

end Sys2Proof
end

section
/-! The spellings of an instruction (30_encoding.md R72, R73, R77). -/

namespace Sys2Proof

/-! ### Decimal spellings -/

theorem all_isDigitChar_toDigits (n : Nat) : (Nat.toDigits 10 n).all isDigitChar = true :=
  List.all_eq_true.mpr fun _ => isDigitChar_of_mem_toDigits

/-- The decimal spelling of an integer is a literal of its value. -/
theorem decimalLiteral?_decimalText (n : Int) : decimalLiteral? (decimalText n) = some n := by
  cases n with
  | ofNat k =>
    have h := decimalLiteral?_of_parts (front := []) (back := []) rfl (.inl ⟨.inl rfl, rfl⟩) (toDigits_ne_nil k)
      (all_isDigitChar_toDigits k) rfl
    simpa [applySign, digitsValue_toDigits, decimalText] using h
  | negSucc k =>
    have h := decimalLiteral?_of_parts (front := []) (back := []) rfl (.inr ⟨rfl, rfl⟩) (toDigits_ne_nil (k + 1))
      (all_isDigitChar_toDigits (k + 1)) rfl
    simpa [applySign, digitsValue_toDigits, decimalText, Int.negSucc_eq] using h

theorem isBlank_of_hasDigit {x : Text} (h : hasDigit x = true) : isBlank x = false := by
  obtain ⟨c, hc, hdigit⟩ := List.any_eq_true.mp h
  exact List.all_eq_false.mpr ⟨c, hc, by simp [not_isBlankChar_of_isDigitChar hdigit]⟩

theorem hasDigit_canonical_key {e : Bool} {entry : Text × Int} (h : entry ∈ canonicalMnemonics e) :
    hasDigit entry.1 = false := by
  obtain ⟨o, _, rfl⟩ := List.mem_map.mp h
  cases o <;> rfl

/-- No canonical mnemonic holds a digit. -/
theorem lookupMnemonic_canonical_of_hasDigit {e d : Bool} {x : Text} (h : hasDigit x = true) :
    lookupMnemonic (Config.canonical e d) x = none := by
  refine Option.eq_none_iff_forall_ne_some.mpr fun code hcode => ?_
  have hkey := hasDigit_canonical_key (lookupMnemonic_canonical.mp hcode)
  simp [h] at hkey

@[simp] theorem coerce_decimalText (e d : Bool) (n : Int) :
    coerce (Config.canonical e d) (.text (decimalText n)) = n := by
  have hlit := decimalLiteral?_decimalText n
  have hdigit := hasDigit_of_decimalLiteral? hlit
  exact coerceText_literal (isBlank_of_hasDigit hdigit) (lookupMnemonic_canonical_of_hasDigit hdigit) hlit

/-! ### Mnemonic spellings -/

theorem isBlank_key (o : Opcode) : isBlank o.key = false := by cases o <;> rfl

theorem inDialect_of_wellFormed {e d : Bool} {i : Instr} (h : i.wellFormed (Config.canonical e d) = true) :
    i.opcode.inDialect e = true := by
  cases i with
  | mul => exact h
  | div => exact (Bool.and_eq_true_iff.mp h).1
  | _ => rfl

/-- A mnemonic in any case coerces to its opcode's code, in a dialect that has the opcode. -/
theorem coerce_mnemonic {e d : Bool} {o : Opcode} {x : Text} (ho : o.inDialect e = true)
    (hx : asciiLower x = o.key) : coerce (Config.canonical e d) (.text x) = o.code := by
  have hentry : (o.key, o.code) ∈ canonicalMnemonics e :=
    List.mem_map_of_mem (List.mem_filter.mpr ⟨o.mem_table, ho⟩)
  have hblank : isBlank x = false := by rw [← isBlank_asciiLower, hx, isBlank_key]
  exact coerceText_mnemonic hblank (lookupMnemonic_canonical.mpr (hx ▸ hentry))

theorem asciiLower_key (o : Opcode) : asciiLower o.key = o.key := by cases o <;> rfl

/-- Operand cells in decimal coerce to the operand. -/
theorem map_coerce_decimal_operand (e d : Bool) (operand : Option Int) :
    (operand.map fun a => Cell.text (decimalText a)).toList.map (coerce (Config.canonical e d)) = operand.toList := by
  cases operand <;> simp

theorem map_coerce_num_operand (cfg : Config) (operand : Option Int) :
    (operand.map Cell.num).toList.map (coerce cfg) = operand.toList := by
  cases operand <;> simp

/-- Settles O40: every spelling's cells coerce to the instruction's opcode and operand, which is all the decoder reads. -/
theorem spellingsDecodeAlike : Obligations.SpellingsDecodeAlike := by
  unfold Obligations.SpellingsDecodeAlike
  intro e d i rest hw
  have hdialect := inDialect_of_wellFormed hw
  have hdecimal := map_coerce_decimal_operand e d i.operand?
  exact ⟨fun x hx => decodeCells_of_coerce rest hw (coerce_mnemonic hdialect hx) hdecimal,
    decodeCells_of_coerce rest hw (coerce_mnemonic hdialect (asciiLower_key _)) hdecimal,
    decodeCells_of_coerce rest hw (coerce_decimalText e d _) hdecimal,
    decodeCells_of_coerce rest hw (coerce_num _ _) (map_coerce_num_operand _ _)⟩

end Sys2Proof
end

section
/-! The phases of a step (40_cycle.md R78 to R82): which check ends it, and the pseudocode of R86 phase by phase. -/

namespace Sys2Proof.Machine

/-! ### Reading a cell that exists -/

theorem State.memRead_eq_valueAt (s : State) {i : Int} (h : inRange i = true) : s.memRead i = some (s.valueAt i) :=
  s.memRead_of_inRange h

theorem State.valueAt_of_memRead {s : State} {i v : Int} (h : s.memRead i = some v) : s.valueAt i = v :=
  Option.some.inj ((s.memRead_eq_valueAt (State.inRange_of_memRead h)).symm.trans h)

/-! ### The checks in their order -/

theorem code_ne_zero_of_ne_stop {o : Opcode} (ho : o ≠ .stop) : o.code ≠ 0 :=
  fun h => ho (Opcode.code_injective (h : o.code = Opcode.stop.code))

/-- A valid value other than 0 is the code of a two-cell instruction (30_encoding.md R55). -/
theorem exists_twoCell_opcode {cfg : Config} {op : Int} (h0 : op ≠ 0) (hv : op ∈ validSet cfg) :
    ∃ o : Opcode, o ≠ .stop ∧ op = o.code := by
  obtain ⟨o, rfl⟩ := exists_opcode_of_mem hv
  exact ⟨o, fun h => h0 (h ▸ rfl), rfl⟩

/-- The opcode fetch (40_cycle.md R79). -/
theorem step_of_no_opcode_cell {s : State} (hs : s.status = .running) (h : inRange s.pc = false) :
    step s = .next (s.setStatus (.faulted .fetchOpcode s.pc)) :=
  step_of_fetch_outOfBounds hs (fetch_outOfRange h)

/-- The operand fetch (40_cycle.md R81). -/
theorem step_of_no_operand_cell {s : State} {op : Int} (hs : s.status = .running) (hop : s.memRead s.pc = some op)
    (h0 : op ≠ 0) (hv : op ∈ validSet s.cfg) (h : inRange (s.pc + 1) = false) :
    step s = .next (s.setStatus (.faulted .fetchOperand (s.pc + 1))) := by
  obtain ⟨o, ho, rfl⟩ := exists_twoCell_opcode h0 hv
  exact step_of_fetch_outOfBounds hs (fetch_noOperand ho hop hv h)

/-- An opcode cell exists and an operand cell does not only at the last index (20_memory.md R45). -/
theorem pc_eq_of_no_operand_cell {s : State} (h : inRange s.pc = true) (hn : inRange (s.pc + 1) = false) :
    s.pc = 99 := by
  rw [inRange_iff] at h
  rw [inRange_eq_false_iff] at hn
  omega

/-- With both cells fetched, the dispatch finds the instruction in them (40_cycle.md R81, R82). -/
theorem exists_instr_of_at {s : State} {op a : Int} (h : s.At op a) (h0 : op ≠ 0) (hv : op ∈ validSet s.cfg) :
    ∃ i, fetch s = .instr i ∧ i.opcode.code = op ∧ i.operand? = some a := by
  obtain ⟨o, ho, rfl⟩ := exists_twoCell_opcode h0 hv
  obtain ⟨_, hop, ha⟩ := h
  exact ⟨o.build a, fetch_instr ho hop hv ha, by rw [Opcode.build_opcode], Opcode.build_operand? ho a⟩

/-! ### How a step ends (40_cycle.md R88) -/

/-- A step of a running core goes on Running, or halts or faults with the status alone changed. -/
theorem step_ends {s : State} (hs : s.status = .running) :
    (∃ t, step s = .next t ∧ t.status = .running) ∨ step s = .next (s.setStatus .halted) ∨
      ∃ kind i, step s = .next (s.setStatus (.faulted kind i)) := by
  rcases step_cases s with ⟨hn, _⟩ | ⟨_, _, he⟩ | ⟨_, _, he⟩ | ⟨_, _, _, _, _, _, he⟩ | ⟨_, _, _, _, _, _, _, _, he⟩ |
    ⟨_, _, _, _, _, he⟩ | ⟨_, _, _, _, _, _, _, _, _, he⟩ | ⟨_, _, _, _, _, he⟩ | ⟨_, _, _, _, he⟩ | ⟨_, _, _, _, he⟩
  · exact absurd hs hn
  · exact .inr (.inr ⟨_, _, he⟩)
  · exact .inr (.inl he)
  · exact .inr (.inr ⟨_, _, he⟩)
  · exact .inr (.inr ⟨_, _, he⟩)
  · exact .inr (.inr ⟨_, _, he⟩)
  · exact .inl ⟨_, he, hs⟩
  · exact .inl ⟨_, he, hs⟩
  · exact .inl ⟨_, he, hs⟩
  · exact .inl ⟨_, he, hs⟩

/-- Settles O22: a stopped core steps to itself, and a running one ends in one of the three ways. -/
theorem everyStepAnswersANextState : Obligations.EveryStepAnswersANextState := by
  unfold Obligations.EveryStepAnswersANextState
  intro s
  by_cases hs : s.status = .running
  · rcases step_ends hs with ⟨t, he, ht⟩ | he | ⟨kind, i, he⟩
    · exact ⟨t, he, fun _ => .inl ht⟩
    · exact ⟨_, he, fun _ => .inr (.inl rfl)⟩
    · exact ⟨_, he, fun _ => .inr (.inr ⟨kind, i, rfl⟩)⟩
  · exact ⟨s, step_of_stopped hs, fun h => absurd h hs⟩

/-! ### The pseudocode (40_cycle.md R86) -/

/-- An instruction that reads one data cell, as the pseudocode writes it. -/
theorem accFromCell_eq_ite (f : Int → Int → Int) (a : Int) (s : State) :
    accFromCell f a s = .next (if ¬ (0 ≤ a ∧ a < 100) then { s with status := .faulted .dataRead a }
      else { s with acc := f s.acc (s.valueAt a), pc := s.pc + 2 }) := by
  cases hr : inRange a with
  | false => rw [if_pos ((inRange_eq_false_iff a).mp hr)]; exact accFromCell_outOfRange f s hr
  | true => rw [if_neg (not_not.mpr ((inRange_iff a).mp hr))]; exact accFromCell_inRange f s hr

/-- An instruction that writes one data cell, as the pseudocode writes it. -/
theorem cellFromValue_eq_ite (v a : Int) (s : State) :
    cellFromValue v a s = .next (if ¬ (0 ≤ a ∧ a < 100) then { s with status := .faulted .dataWrite a }
      else { s with mem := s.mem.poke a.toNat (.num v), pc := s.pc + 2 }) := by
  cases hr : inRange a with
  | false => rw [if_pos ((inRange_eq_false_iff a).mp hr)]; exact cellFromValue_outOfRange v s hr
  | true => rw [if_neg (not_not.mpr ((inRange_iff a).mp hr))]; exact cellFromValue_inRange v s hr

/-- DIV's result in the pseudocode's own branches: for the divisor 0 only PC is written (42_arithmetic.md R101). -/
theorem divideOrKeep_eq_ite (s : State) (d : Int) :
    { s with acc := divideOrKeep s.acc d, pc := s.pc + 2 } =
      if d ≠ 0 then { s with acc := floorDiv s.acc d, pc := s.pc + 2 } else { s with pc := s.pc + 2 } := by
  by_cases hd : d = 0 <;> simp [divideOrKeep, hd]

section
variable {s : State} (hs : s.status = .running)
include hs

theorem pseudocodeStep_of_no_opcode_cell (h : inRange s.pc = false) :
    s.pseudocodeStep = s.setStatus (.faulted .fetchOpcode s.pc) := by
  rw [State.pseudocodeStep, if_neg (not_not.mpr hs), if_pos ((inRange_eq_false_iff _).mp h)]; rfl

theorem pseudocodeStep_of_halting_opcode {op : Int} (hop : s.memRead s.pc = some op)
    (h : op = 0 ∨ op ∉ validSet s.cfg) : s.pseudocodeStep = s.setStatus .halted := by
  have hpc := (inRange_iff _).mp (State.inRange_of_memRead hop)
  simp only [State.pseudocodeStep, State.valueAt_of_memRead hop, if_neg (not_not.mpr hs), if_neg (not_not.mpr hpc),
    if_pos h]
  rfl

theorem pseudocodeStep_of_no_operand_cell {op : Int} (hop : s.memRead s.pc = some op) (h0 : op ≠ 0)
    (hv : op ∈ validSet s.cfg) (h : inRange (s.pc + 1) = false) :
    s.pseudocodeStep = s.setStatus (.faulted .fetchOperand (s.pc + 1)) := by
  have hpc := (inRange_iff _).mp (State.inRange_of_memRead hop)
  have hvalid : ¬ (op = 0 ∨ op ∉ validSet s.cfg) := not_or.mpr ⟨h0, not_not.mpr hv⟩
  simp only [State.pseudocodeStep, State.valueAt_of_memRead hop, if_neg (not_not.mpr hs), if_neg (not_not.mpr hpc),
    if_neg hvalid, if_pos ((inRange_eq_false_iff _).mp h)]
  rfl

end

/-- Once both cells are fetched, the meaning of each instruction is the pseudocode's branch for its code. -/
theorem exec_eq_pseudocodeStep {s : State} {o : Opcode} {a : Int} (ho : o ≠ .stop) (hv : o.code ∈ validSet s.cfg)
    (h : s.At o.code a) : exec (o.build a) s = .next s.pseudocodeStep := by
  obtain ⟨hs, hop, ha⟩ := h
  have hpc := (inRange_iff _).mp (State.inRange_of_memRead hop)
  have hpc' := (inRange_iff _).mp (State.inRange_of_memRead ha)
  have hvalid : ¬ (o.code = 0 ∨ o.code ∉ validSet s.cfg) :=
    not_or.mpr ⟨code_ne_zero_of_ne_stop ho, not_not.mpr hv⟩
  simp only [State.pseudocodeStep, State.valueAt_of_memRead hop, State.valueAt_of_memRead ha,
    if_neg (not_not.mpr hs), if_neg (not_not.mpr hpc), if_neg (not_not.mpr hpc'), if_neg hvalid]
  cases o with
  | stop => exact absurd rfl ho
  | addi => rfl
  | subi => rfl
  | add => exact accFromCell_eq_ite _ a s
  | sub => exact accFromCell_eq_ite _ a s
  | mul => exact accFromCell_eq_ite _ a s
  | div => exact (accFromCell_eq_ite divideOrKeep a s).trans (by rw [divideOrKeep_eq_ite]; rfl)
  | jpos => exact (branchIf_eq _ a s).trans (by simp [accPositive, State.setPc, Opcode.code])
  | jzero => exact (branchIf_eq _ a s).trans (by simp [accZero, State.setPc, Opcode.code])
  | store => exact cellFromValue_eq_ite _ a s
  | load => exact accFromCell_eq_ite (fun _ v => v) a s

/-- Settles O23: the step and the pseudocode agree at each check in turn, and past the checks in each instruction. -/
theorem stepIsThePseudocode : Obligations.StepIsThePseudocode := by
  unfold Obligations.StepIsThePseudocode
  intro s
  by_cases hs : s.status = .running
  swap
  · rw [step_of_stopped hs, State.pseudocodeStep, if_pos hs]
  cases hpc : inRange s.pc with
  | false => rw [step_of_no_opcode_cell hs hpc, pseudocodeStep_of_no_opcode_cell hs hpc]
  | true =>
    have hop := s.memRead_eq_valueAt hpc
    by_cases hhalt : s.valueAt s.pc = 0 ∨ s.valueAt s.pc ∉ validSet s.cfg
    · rw [step_of_halting_opcode hs hop hhalt, pseudocodeStep_of_halting_opcode hs hop hhalt]
    · obtain ⟨h0, hv⟩ : s.valueAt s.pc ≠ 0 ∧ s.valueAt s.pc ∈ validSet s.cfg := by simpa using hhalt
      cases hpc' : inRange (s.pc + 1) with
      | false =>
        rw [step_of_no_operand_cell hs hop h0 hv hpc', pseudocodeStep_of_no_operand_cell hs hop h0 hv hpc']
      | true =>
        obtain ⟨o, ho, hcode⟩ := exists_twoCell_opcode h0 hv
        rw [hcode] at hop hv
        have hat : s.At o.code _ := ⟨hs, hop, s.memRead_eq_valueAt hpc'⟩
        rw [step_of_at ho hv hat, exec_eq_pseudocodeStep ho hv hat]

/-! ### The checks, as statements of the step -/

/-- Settles O18: the status check, the opcode fetch's fault, and the opcode as the coerced cell at PC. -/
theorem statusCheckThenOpcodeFetch : Obligations.StatusCheckThenOpcodeFetch := by
  unfold Obligations.StatusCheckThenOpcodeFetch
  refine ⟨fun s => step_of_stopped, fun s hs hpc => ?_, fun s h0 h100 => ?_⟩
  · exact step_of_no_opcode_cell hs ((inRange_eq_false_iff _).mpr (by omega))
  · have hop := s.memRead_eq_valueAt ((inRange_iff _).mpr ⟨h0, h100⟩)
    refine ⟨hop, fun hs => ⟨step_of_halting_opcode hs hop, fun a hne hv ha => ?_⟩⟩
    obtain ⟨i, hf, hcode, hoperand⟩ := exists_instr_of_at ⟨hs, hop, ha⟩ hne hv
    exact ⟨i, hcode, hoperand, step_of_fetch_instr hs hf⟩

/-- Settles O19: the halt check reads the opcode cell alone. -/
theorem haltCheckComesBeforeTheOperand : Obligations.HaltCheckComesBeforeTheOperand := by
  unfold Obligations.HaltCheckComesBeforeTheOperand
  exact fun _ _ => step_of_halting_opcode

/-- Settles O20: the operand fetch's fault, which needs PC at the last cell, and the instruction it finds otherwise. -/
theorem operandFetchOutOfRangeFaults : Obligations.OperandFetchOutOfRangeFaults := by
  unfold Obligations.OperandFetchOutOfRangeFaults
  refine ⟨fun s op hs hop h0 hv hn => ?_, fun _ _ _ => exists_instr_of_at⟩
  have hpc := pc_eq_of_no_operand_cell (State.inRange_of_memRead hop) hn
  have hstep := step_of_no_operand_cell hs hop h0 hv hn
  rw [hpc] at hstep
  exact ⟨hpc, hstep⟩

/-! ### STOP and its spellings (40_cycle.md R83) -/

/-- Every listed spelling of STOP coerces to 0 under the canonical tables. -/
theorem coerce_stop_spelling (e d : Bool) {c : Cell}
    (hc : c ∈ [Cell.text ['S', 'T', 'O', 'P'], .text ['s', 't', 'o', 'p'], .text ['0']]) :
    coerce (Config.canonical e d) c = 0 := by
  simp only [List.mem_cons, List.not_mem_nil, or_false] at hc
  rcases hc with rfl | rfl | rfl
  · exact coerce_mnemonic (o := .stop) rfl rfl
  · exact coerce_mnemonic (o := .stop) rfl rfl
  · exact coerce_decimalText e d 0

/-- A text that is neither mnemonic nor literal coerces to 0 where `COERCE_OTHER` is 0, blank or not. -/
theorem coerceText_eq_zero_of_unrecognized {cfg : Config} {x : Text} (hm : lookupMnemonic cfg x = none)
    (hl : decimalLiteral? x = none) (ho : coerceOther x = 0) : coerceText cfg x = 0 := by
  cases hb : isBlank x with
  | true => exact coerceText_blank cfg hb
  | false => exact (coerceText_other hb hm hl).trans ho

/-- Settles O1: STOP's meaning, the step at opcode 0, the fault before it, and the spellings that coerce to 0. -/
theorem stopHaltsTheCore : Obligations.StopHaltsTheCore := by
  unfold Obligations.StopHaltsTheCore
  exact ⟨fun _ => rfl, fun _ hs h => step_of_fetch_instr hs (fetch_stop h), fun _ => step_of_no_opcode_cell,
    fun cfg => ⟨coerce_empty cfg, coerce_num cfg 0⟩, fun e d _ => coerce_stop_spelling e d,
    fun _ _ => coerceText_eq_zero_of_unrecognized⟩

end Sys2Proof.Machine
end

section
/-! The data transfer instructions STORE and LOAD (41_data_transfer.md R90, R91). -/

namespace Sys2Proof.Machine

/-! ### Dispatch of the opcodes every configuration has (30_encoding.md R62) -/

theorem step_of_at_base {s : State} {o : Opcode} {a : Int} (ho : o ≠ .stop) (hv : o.code ∈ validBase)
    (h : s.At o.code a) : step s = exec (o.build a) s :=
  step_of_at ho (mem_validSet.mpr (.inl hv)) h

/-! ### One cell written, one cell read -/

theorem Memory.cell?_poke_self (m : Memory) {i : Int} (c : Cell) (hi : inRange i = true) :
    (m.poke i.toNat c).cell? i = some c :=
  (m.cell?_poke i c hi).trans (if_pos rfl)

theorem Memory.cell?_poke_of_ne (m : Memory) {i j : Int} (c : Cell) (hi : inRange i = true) (hj : j ≠ i) :
    (m.poke i.toNat c).cell? j = m.cell? j :=
  (m.cell?_poke j c hi).trans (if_neg hj)

theorem State.valueAt_of_cell? {s : State} {i : Int} {c : Cell} (h : s.mem.cell? i = some c) :
    s.valueAt i = coerce s.cfg c :=
  State.valueAt_of_memRead (State.memRead_of_cell? h)

/-! ### STORE -/

/-- Settles O10: in range the state after is that of the one cell written, whose read-after-write rules say the rest. -/
theorem storeWritesTheAccumulator : Obligations.StoreWritesTheAccumulator := by
  unfold Obligations.StoreWritesTheAccumulator
  intro s a
  refine ⟨fun hr => ?_, cellFromValue_outOfRange s.acc s, step_of_at_base (o := .store) (by decide) (by decide)⟩
  have hcell := s.mem.cell?_poke_self (.num s.acc) hr
  exact ⟨_, cellFromValue_inRange s.acc s hr, hcell, fun _ => s.mem.cell?_poke_of_ne (.num s.acc) hr,
    State.memRead_of_cell? (s := (s.setMem _).advancePc) hcell, rfl, rfl, rfl, rfl⟩

/-! ### LOAD -/

/-- Settles O11: the cell's value is what the instruction's own fetches read there, or what coercion makes of its raw
content. -/
theorem loadCopiesTheCell : Obligations.LoadCopiesTheCell := by
  unfold Obligations.LoadCopiesTheCell
  intro s a
  refine ⟨accFromCell_inRange (fun _ v => v) s, accFromCell_outOfRange (fun _ v => v) s,
    step_of_at_base (o := .load) (by decide) (by decide), State.valueAt_of_cell?, ?ownOperand, ?ownOpcode, ?text⟩
  case ownOperand =>
    rintro ⟨_, _, hoperand⟩ ha
    exact State.valueAt_of_memRead (ha ▸ hoperand)
  case ownOpcode =>
    rintro ⟨_, hopcode, _⟩ rfl
    exact State.valueAt_of_memRead hopcode
  case text =>
    intro x hx hb
    rw [State.valueAt_of_cell? hx]
    exact ⟨fun _ => coerceText_mnemonic hb, coerceText_other hb⟩

end Sys2Proof.Machine
end

section
/-! The quotient of DIV (42_arithmetic.md R99, 00_scope.md R11): one characterisation for each sign of the divisor, from
which the floor of the rational quotient follows. -/

namespace Sys2Proof.Machine

/-! ### The floored quotient by the sign of the divisor -/

theorem le_floorDiv_iff_of_pos {a b q : Int} (hb : 0 < b) : q ≤ floorDiv a b ↔ q * b ≤ a := by
  rw [floorDiv, Int.fdiv_eq_ediv_of_nonneg a hb.le, Int.le_ediv_iff_mul_le hb]

theorem floorDiv_neg_neg (a b : Int) : floorDiv (-a) (-b) = floorDiv a b := Int.neg_fdiv_neg a b

/-- A negative divisor is a positive one with both signs turned. -/
theorem le_floorDiv_iff_of_neg {a b q : Int} (hb : b < 0) : q ≤ floorDiv a b ↔ a ≤ q * b := by
  rw [← floorDiv_neg_neg, le_floorDiv_iff_of_pos (neg_pos.mpr hb), mul_neg, neg_le_neg_iff]

/-- The integers below the quotient are the integers below the rational quotient. -/
theorem floorDiv_eq_floor {a b : Int} (hb : b ≠ 0) : floorDiv a b = ⌊(a : Rat) / (b : Rat)⌋ := by
  refine eq_of_forall_le_iff fun q => ?_
  rw [Int.le_floor]
  rcases hb.lt_or_gt with hneg | hpos
  · rw [le_floorDiv_iff_of_neg hneg, le_div_iff_of_neg (Int.cast_lt_zero.mpr hneg)]
    norm_cast
  · rw [le_floorDiv_iff_of_pos hpos, le_div_iff₀ (Int.cast_pos.mpr hpos)]
    norm_cast

/-- Settles O12: the quotient meets its own bound, and every integer that meets it is at most the quotient. -/
theorem divisionRoundsTowardMinusInfinity : Obligations.DivisionRoundsTowardMinusInfinity := by
  unfold Obligations.DivisionRoundsTowardMinusInfinity
  refine ⟨fun _ _ => floorDiv_eq_floor, fun a b hb => ?_, fun a b hb => ?_, by decide⟩
  · exact ⟨(le_floorDiv_iff_of_pos hb).mp le_rfl, fun _ => (le_floorDiv_iff_of_pos hb).mpr⟩
  · exact ⟨(le_floorDiv_iff_of_neg hb).mp le_rfl, fun _ => (le_floorDiv_iff_of_neg hb).mpr⟩

/-! ### What DIV leaves in ACC (42_arithmetic.md R100, R101) -/

@[simp] theorem divideOrKeep_zero (acc : Int) : divideOrKeep acc 0 = acc := if_pos rfl

theorem divideOrKeep_of_ne_zero (acc : Int) {d : Int} (hd : d ≠ 0) :
    divideOrKeep acc d = ⌊(acc : Rat) / (d : Rat)⌋ :=
  (if_neg hd).trans (floorDiv_eq_floor hd)

@[simp] theorem divideOrKeep_one (acc : Int) : divideOrKeep acc 1 = acc := Int.fdiv_one acc

theorem divideOrKeep_self {acc : Int} (h : acc ≠ 0) : divideOrKeep acc acc = 1 :=
  (if_neg h).trans (Int.fdiv_self h)

@[simp] theorem zero_divideOrKeep (d : Int) : divideOrKeep 0 d = 0 := by
  by_cases hd : d = 0
  · exact if_pos hd
  · exact (if_neg hd).trans (Int.zero_fdiv d)

end Sys2Proof.Machine
end

section
/-! The arithmetic instructions (42_arithmetic.md R94 to R101). -/

namespace Sys2Proof.Machine

/-! ### Immediate operands -/

/-- Settles O2: 44 is an opcode of every configuration. -/
theorem addiAddsTheImmediate : Obligations.AddiAddsTheImmediate := by
  unfold Obligations.AddiAddsTheImmediate
  exact fun s a => ⟨accFromImmediate_eq _ a s, step_of_at_base (o := .addi) (by decide) (by decide)⟩

/-- Settles O3: 45 is an opcode of every configuration. -/
theorem subiSubtractsTheImmediate : Obligations.SubiSubtractsTheImmediate := by
  unfold Obligations.SubiSubtractsTheImmediate
  exact fun s a => ⟨accFromImmediate_eq _ a s, step_of_at_base (o := .subi) (by decide) (by decide)⟩

/-! ### Cell operands -/

theorem State.valueAt_own_operand {s : State} {op a : Int} (h : s.At op a) (ha : a = s.pc + 1) : s.valueAt a = a := by
  obtain ⟨_, _, hoperand⟩ := h
  exact State.valueAt_of_memRead (ha ▸ hoperand)

theorem State.valueAt_own_opcode {s : State} {op a : Int} (h : s.At op a) (ha : a = s.pc) : s.valueAt a = op := by
  obtain ⟨_, hopcode, _⟩ := h
  exact State.valueAt_of_memRead (ha ▸ hopcode)

theorem State.inRange_of_cell? {s : State} {i : Int} {c : Cell} (h : s.mem.cell? i = some c) : inRange i = true :=
  State.inRange_of_memRead (State.memRead_of_cell? h)

/-- An instruction that reads one data cell, by the value the cell holds and the result for that value. -/
theorem accFromCell_of_valueAt (f : Int → Int → Int) {a v r : Int} {s : State} (h : inRange a = true)
    (hv : s.valueAt a = v) (hr : f s.acc v = r) : accFromCell f a s = .next { s with acc := r, pc := s.pc + 2 } := by
  subst hv hr
  exact accFromCell_inRange f s h

/-- An empty cell is read as 0 (30_encoding.md R57). -/
theorem accFromCell_of_empty (f : Int → Int → Int) {a r : Int} {s : State} (h : s.mem.cell? a = some .empty)
    (hr : f s.acc 0 = r) : accFromCell f a s = .next { s with acc := r, pc := s.pc + 2 } :=
  accFromCell_of_valueAt f (State.inRange_of_cell? h) (State.valueAt_of_cell? h) hr

/-- Settles O4: the cell's value is what the instruction's own fetches read there, or what coercion makes of its raw
content. -/
theorem addAddsTheCell : Obligations.AddAddsTheCell := by
  unfold Obligations.AddAddsTheCell
  intro s a
  refine ⟨accFromCell_inRange _ s, accFromCell_outOfRange _ s, step_of_at_base (o := .add) (by decide) (by decide),
    State.valueAt_own_operand, State.valueAt_own_opcode, State.valueAt_of_cell?, fun x code hx hb hm => ?_⟩
  exact (State.valueAt_of_cell? hx).trans (coerceText_mnemonic hb hm)

/-- Settles O5: the general rule, and the differences `ACC - ACC` and `ACC - 0`. -/
theorem subSubtractsTheCell : Obligations.SubSubtractsTheCell := by
  unfold Obligations.SubSubtractsTheCell
  intro s a
  exact ⟨accFromCell_inRange _ s, accFromCell_outOfRange _ s, step_of_at_base (o := .sub) (by decide) (by decide),
    fun hr hv => accFromCell_of_valueAt _ hr hv (sub_self s.acc),
    fun hempty => accFromCell_of_empty _ hempty (sub_zero s.acc)⟩

/-! ### The extended dialect (30_encoding.md R62) -/

theorem mul_mem_validSet {cfg : Config} : 52 ∈ validSet cfg ↔ cfg.extended = true :=
  Instr.code_mem_validSet (.mul 0)

theorem div_mem_validSet {cfg : Config} : 53 ∈ validSet cfg ↔ (cfg.extended && cfg.divInValidSet) = true :=
  Instr.code_mem_validSet (.div 0)

/-- Settles O6: 52 is valid in the extended dialect alone, so elsewhere the halt check ends the step. -/
theorem mulMultipliesByTheCell : Obligations.MulMultipliesByTheCell := by
  unfold Obligations.MulMultipliesByTheCell
  intro s a
  refine ⟨accFromCell_inRange _ s, accFromCell_outOfRange _ s, fun he => ?extended, fun he hs hop => ?base,
    fun hempty => accFromCell_of_empty _ hempty (mul_zero s.acc)⟩
  case extended => exact step_of_at (o := .mul) (by decide) (mul_mem_validSet.mpr he)
  case base => exact step_of_halting_opcode hs hop (.inr (by simp [mul_mem_validSet, he]))

/-- Settles O7: the general rule with DIV's result for each divisor, and 53 valid in the one configuration alone. -/
theorem divFloorsOrKeeps : Obligations.DivFloorsOrKeeps := by
  unfold Obligations.DivFloorsOrKeeps
  intro s a
  refine ⟨fun hr hd => ?quotient, fun hr hv => ?zeroDivisor, accFromCell_outOfRange _ s, fun he hd => ?valid,
    fun hc hs hop => ?invalid, fun hr hv hacc => ?self, fun hr hv => ?one, fun hr hacc => ?zeroAcc,
    State.valueAt_of_cell?⟩
  case quotient => exact accFromCell_of_valueAt _ hr rfl (divideOrKeep_of_ne_zero s.acc hd)
  case zeroDivisor => exact accFromCell_of_valueAt _ hr hv (divideOrKeep_zero s.acc)
  case valid => exact step_of_at (o := .div) (by decide) (div_mem_validSet.mpr (by simp [he, hd]))
  case invalid => exact step_of_halting_opcode hs hop (.inr (by simp [div_mem_validSet, hc]))
  case self => exact accFromCell_of_valueAt _ hr hv (divideOrKeep_self hacc)
  case one => exact accFromCell_of_valueAt _ hr hv (divideOrKeep_one s.acc)
  case zeroAcc => exact accFromCell_of_valueAt _ hr rfl (by rw [hacc, zero_divideOrKeep])

end Sys2Proof.Machine
end

section
/-! The branch instructions JPOS and JZERO (43_branch.md R103 to R105). -/

namespace Sys2Proof.Machine

/-! ### What a branch answers, taken or not -/

theorem exec_jpos (a : Int) (s : State) :
    exec (.jpos a) s = .next (s.setPc (if 0 < s.acc then a else s.pc + 2)) := by
  simp [exec, execJpos, branchIf_eq, accPositive]

theorem exec_jzero (a : Int) (s : State) :
    exec (.jzero a) s = .next (s.setPc (if s.acc = 0 then a else s.pc + 2)) := by
  simp [exec, execJzero, branchIf_eq, accZero]

/-- A taken branch to its own index answers the state it started from (70_reset_and_hazards.md R160). -/
theorem step_of_takesBranch_self {s : State} (h : s.TakesBranch s.pc) : step s = .next s :=
  step_of_takesBranch h

/-- Settles O8: the two sides of ACC > 0, and the self-loop as a taken branch to its own index. -/
theorem jposBranchesOnPositive : Obligations.JposBranchesOnPositive := by
  unfold Obligations.JposBranchesOnPositive
  intro s a
  refine ⟨fun hpos => ?taken, fun hnonpos => ?notTaken, step_of_at_base (o := .jpos) (by decide) (by decide),
    fun hat hpos => step_of_takesBranch_self (.inl ⟨hat, hpos⟩)⟩
  case taken => rw [exec_jpos, if_pos hpos, State.setPc]
  case notTaken => rw [exec_jpos, if_neg (not_lt.mpr hnonpos), State.setPc]

/-- Settles O9: the two sides of ACC = 0, and the self-loop as a taken branch to its own index. -/
theorem jzeroBranchesOnZero : Obligations.JzeroBranchesOnZero := by
  unfold Obligations.JzeroBranchesOnZero
  intro s a
  refine ⟨fun hzero => ?taken, fun hnonzero => ?notTaken, step_of_at_base (o := .jzero) (by decide) (by decide),
    fun hat hzero => step_of_takesBranch_self (.inr ⟨hat, hzero⟩)⟩
  case taken => rw [exec_jzero, if_pos hzero, State.setPc]
  case notTaken => rw [exec_jzero, if_neg hnonzero, State.setPc]

/-! ### A target out of range (43_branch.md R105) -/

theorem State.TakesBranch.running {s : State} {a : Int} (h : s.TakesBranch a) : s.status = .running := by
  rcases h with ⟨⟨hs, _, _⟩, _⟩ | ⟨⟨hs, _, _⟩, _⟩ <;> exact hs

/-- Settles O28: the branch itself checks no range, so the first access that does not exist is the next opcode fetch. -/
theorem outOfRangeTargetFaultsAtTheNextFetch : Obligations.OutOfRangeTargetFaultsAtTheNextFetch := by
  unfold Obligations.OutOfRangeTargetFaultsAtTheNextFetch
  refine ⟨fun s a hr htaken => ⟨step_of_takesBranch htaken, ?fetchOfTarget⟩, fun s t _ _ _ hpc ht => ?fetchOf100⟩
  case fetchOfTarget =>
    have hs : (s.setPc a).status = .running := State.TakesBranch.running (s := s) htaken
    exact step_of_no_opcode_cell hs hr
  case fetchOf100 =>
    rw [step_of_no_opcode_cell ht (by rw [hpc]; decide), State.setStatus, hpc]

end Sys2Proof.Machine
end

section
/-! The keys of a mapping: the canonical decimal spellings of the indices, and the mappings that are refused
(45_testbench.md R109, R129). -/

namespace Sys2Proof.Machine

/-! ### The spelling of an index -/

theorem isDigitChar_digitChar {d : Nat} (h : d < 10) : isDigitChar d.digitChar = true := by
  rw [isDigitChar_iff, Nat.toNat_digitChar_of_lt_ten h]
  omega

theorem digitValue_digitChar {d : Nat} (h : d < 10) : digitValue d.digitChar = d := by
  rw [digitValue, Nat.toNat_digitChar_of_lt_ten h]
  omega

/-- An index in decimal is the key of that index. -/
theorem indexKey?_toDigits {n : Nat} (h : n < 100) : indexKey? (Nat.toDigits 10 n) = some n := by
  by_cases hn : n < 10
  · rw [Nat.toDigits_of_lt_base hn]
    simp [indexKey?, isDigitChar_digitChar hn, digitValue_digitChar hn]
  · have htens : n / 10 < 10 := by omega
    have hunits : n % 10 < 10 := by omega
    have hlead : (n / 10).digitChar.toNat ≠ 48 := by rw [Nat.toNat_digitChar_of_lt_ten htens]; omega
    have hdigits : Nat.toDigits 10 n = [(n / 10).digitChar, (n % 10).digitChar] := by
      rw [Nat.toDigits_eq_if (by omega), if_neg hn, Nat.toDigits_of_lt_base htens]; rfl
    simp [hdigits, indexKey?, isDigitChar_digitChar, digitValue_digitChar, htens, hunits, hlead, Nat.div_add_mod]

/-- A key is a run of digits that spells its index. -/
theorem indexKey?_spec {key : Text} {n : Nat} (h : indexKey? key = some n) :
    key ≠ [] ∧ key.all isDigitChar = true ∧ digitsValue key = n := by
  unfold indexKey? at h
  split at h
  · rw [Option.ite_none_right_eq_some, Option.some.injEq] at h
    obtain ⟨hc, rfl⟩ := h
    simp [hc, digitsValue]
  · rw [Option.ite_none_right_eq_some, Option.some.injEq] at h
    obtain ⟨hcd, rfl⟩ := h
    simp only [Bool.and_eq_true] at hcd
    simp [hcd, digitsValue]
  · cases h

theorem decimalLiteral?_of_indexKey? {key : Text} {n : Nat} (h : indexKey? key = some n) :
    decimalLiteral? key = some (n : Int) := by
  obtain ⟨hne, hdigits, rfl⟩ := indexKey?_spec h
  simpa [applySign] using
    decimalLiteral?_of_parts (front := []) (back := []) rfl (.inl ⟨.inl rfl, rfl⟩) hne hdigits rfl

/-- The text is no decimal literal of an integer from 0 to 99 (45_testbench.md R109). -/
abbrev SpellsNoIndex (key : Text) : Prop := ∀ n, decimalLiteral? key = some n → n < 0 ∨ 100 ≤ n

theorem indexKey?_of_spellsNoIndex {key : Text} (h : SpellsNoIndex key) : indexKey? key = none := by
  refine Option.eq_none_iff_forall_ne_some.mpr fun n hn => ?_
  have hrange := h n (decimalLiteral?_of_indexKey? hn)
  have hlt : n < 100 := indexKey?_lt hn
  omega

/-! ### Mappings with good and with bad keys -/

theorem resolveKeys_cons {key : Text} {i : Nat} {t : Token} {p : Mapping} {entries : List (Nat × Token)}
    (hkey : indexKey? key = some i) (hp : resolveKeys p = some entries) (hnew : ∀ e ∈ entries, i ≠ e.1) :
    resolveKeys ((key, t) :: p) = some ((i, t) :: entries) := by
  have hany : entries.any (fun x => x.1 == i) = false :=
    List.any_eq_false.mpr fun e he => by simpa using (hnew e he).symm
  simp [resolveKeys, hkey, hp, hany]

/-- Distinct indices written in decimal are read back. -/
theorem resolveKeys_toDigits {entries : List (Nat × Token)} (hlt : ∀ e ∈ entries, e.1 < 100)
    (hdistinct : entries.Pairwise fun x y => x.1 ≠ y.1) :
    resolveKeys (entries.map fun e => (Nat.toDigits 10 e.1, e.2)) = some entries := by
  induction entries with
  | nil => rfl
  | cons x rest ih =>
    obtain ⟨hx, hrest⟩ := List.forall_mem_cons.mp hlt
    obtain ⟨hnew, hdistinct⟩ := List.pairwise_cons.mp hdistinct
    exact resolveKeys_cons (indexKey?_toDigits hx) (ih hrest hdistinct) hnew

theorem resolveKeys_of_spellsNoIndex {p : Mapping} (h : ∃ e ∈ p, SpellsNoIndex e.1) : resolveKeys p = none := by
  obtain ⟨e, he, hkey⟩ := h
  exact resolveKeys_bad_key ⟨e, he, indexKey?_of_spellsNoIndex hkey⟩

theorem mappingEntries_of_resolveKeys {p : Mapping} {entries : List (Nat × Token)}
    (h : resolveKeys p = some entries) : mappingEntries p = entries := by
  rw [mappingEntries, h, Option.getD_some]

theorem TestCase.not_wellFormed_of_spellsNoIndex {c : TestCase} (h : ∃ e ∈ c.before ++ c.after, SpellsNoIndex e.1) :
    c.wellFormed = false := by
  obtain ⟨e, he, hkey⟩ := h
  rcases List.mem_append.mp he with he | he
  · simp [TestCase.wellFormed, resolveKeys_of_spellsNoIndex ⟨e, he, hkey⟩]
  · simp [TestCase.wellFormed, resolveKeys_of_spellsNoIndex ⟨e, he, hkey⟩]

end Sys2Proof.Machine
end

section
/-! Whole memories: what reads back after entries are written, and the cells as lists (45_testbench.md R109, R116, R120,
R124). -/

namespace Sys2Proof.Machine

/-! ### Entries written into a memory -/

/-- The entries' tokens written as cells one after the other: what Load does to an empty memory and the harness's
overrides do to the clone (45_testbench.md R109, R120). -/
def Memory.writeEntries (cellOf : Token → Cell) (entries : List (Nat × Token)) (m : Memory) : Memory :=
  entries.foldl (fun m e => m.poke e.1 (cellOf e.2)) m

theorem Memory.cell?_natCast (m : Memory) {i : Nat} (h : i < 100) : m.cell? (i : Int) = some (m.peek i) :=
  m.cell?_of_inRange ((inRange_iff _).mpr (by omega))

theorem Memory.cell?_writeEntries_of_mem (cellOf : Token → Cell) {entries : List (Nat × Token)} (m : Memory)
    (hlt : ∀ e ∈ entries, e.1 < 100) (hdistinct : entries.Pairwise fun x y => x.1 ≠ y.1) {e : Nat × Token}
    (he : e ∈ entries) : (m.writeEntries cellOf entries).cell? (e.1 : Int) = some (cellOf e.2) := by
  obtain ⟨_, hwritten⟩ := Memory.peek_foldl_poke cellOf entries m
  rw [Memory.cell?_natCast _ (hlt e he), Memory.writeEntries, hwritten hdistinct e he]

theorem Memory.cell?_writeEntries_of_unnamed (cellOf : Token → Cell) {entries : List (Nat × Token)} (m : Memory)
    {j : Int} (h : ∀ e ∈ entries, (e.1 : Int) ≠ j) : (m.writeEntries cellOf entries).cell? j = m.cell? j := by
  cases hj : inRange j with
  | false => rw [Memory.cell?_of_not_inRange _ hj, Memory.cell?_of_not_inRange _ hj]
  | true =>
    obtain ⟨hnonneg, _⟩ := (inRange_iff j).mp hj
    obtain ⟨hkept, _⟩ := Memory.peek_foldl_poke cellOf entries m
    have hunnamed : ∀ e ∈ entries, e.1 ≠ j.toNat := fun e he heq => h e he (by omega)
    rw [Memory.cell?_of_inRange _ hj, Memory.cell?_of_inRange _ hj, Memory.writeEntries, hkept _ hunnamed]

/-! ### The cells and their integers as lists (45_testbench.md R116, R124) -/

@[simp] theorem Memory.length_cells (m : Memory) : m.cells.length = 100 := by simp [Memory.cells]

@[simp] theorem Memory.length_values (cfg : Config) (m : Memory) : (m.values cfg).length = 100 := by
  simp [Memory.values]

theorem Memory.getElem?_cells (m : Memory) {i : Nat} (h : i < 100) : m.cells[i]? = m.cell? (i : Int) := by
  simp [m.cell?_natCast h, Memory.cells, h]

theorem State.getElem?_values (s : State) {i : Nat} (h : i < 100) : (s.mem.values s.cfg)[i]? = s.memRead (i : Int) := by
  rw [Memory.values, List.getElem?_map, Memory.getElem?_cells _ h, State.memRead]

end Sys2Proof.Machine
end

section
/-! The interactive runner: the commands between two runs, and the loop of Run (45_testbench.md R109 to R116). -/

namespace Sys2Proof.Machine

/-! ### Commands while no Run is in progress -/

theorem Runner.command_of_idle {r : Runner} (h : r.runInProgress = false) (c : Command) :
    r.command c = r.idleCommand c := by
  simp [Runner.command, h]

theorem Runner.load_of_resolveKeys {p : Mapping} {entries : List (Nat × Token)} (h : resolveKeys p = some entries)
    (r : Runner) : r.load p = .next { r with core := r.core.setMem (Memory.writeEntries tokenCell entries []) } := by
  simp [Runner.load, expandProgram, h, Memory.writeEntries]

theorem Runner.load_of_bad_key {p : Mapping} (h : resolveKeys p = none) (r : Runner) :
    r.load p = .refused .badProgramKey := by
  simp [Runner.load, expandProgram, h]

/-- Settles O49: the keys are read back, and their tokens are written into an empty memory. -/
theorem loadReplacesEveryCell : Obligations.LoadReplacesEveryCell := by
  unfold Obligations.LoadReplacesEveryCell
  refine ⟨fun r entries hidle hlt hdistinct => ?accepted, fun r p hidle hbad => ?refused⟩
  case accepted =>
    have hload := r.load_of_resolveKeys (resolveKeys_toDigits hlt hdistinct)
    refine ⟨_, (Runner.command_of_idle hidle _).trans hload, rfl, rfl, rfl, fun e he => ?_, fun i h0 h100 hi => ?_⟩
    · exact Memory.cell?_writeEntries_of_mem tokenCell [] hlt hdistinct he
    · have hempty := Memory.cell?_of_inRange [] ((inRange_iff i).mpr ⟨h0, h100⟩)
      exact (Memory.cell?_writeEntries_of_unnamed tokenCell [] hi).trans hempty
  case refused =>
    exact (Runner.command_of_idle hidle _).trans (r.load_of_bad_key (resolveKeys_of_spellsNoIndex hbad))

/-- Settles O50: each edit's equation, and the read-after-write rules of the one cell written. -/
theorem hostEdits : Obligations.HostEdits := by
  unfold Obligations.HostEdits
  intro r hidle
  refine ⟨fun i c hi => ?inRange, fun i c hi => ?outOfRange, fun v => Runner.command_of_idle hidle _,
    fun v => Runner.command_of_idle hidle _⟩
  case inRange =>
    have hedit : r.editCell i c = .next { r with core := r.core.setMem (r.core.mem.poke i.toNat c) } := if_pos hi
    exact ⟨_, (Runner.command_of_idle hidle _).trans hedit, r.core.mem.cell?_poke_self c hi,
      fun _ => r.core.mem.cell?_poke_of_ne c hi, rfl, rfl, rfl⟩
  case outOfRange =>
    have hedit : r.editCell i c = .refused (.noSuchCell i) := by simp [Runner.editCell, hi]
    exact (Runner.command_of_idle hidle _).trans hedit

theorem Runner.command_step {r : Runner} (h : r.runInProgress = false) :
    r.command .step = .next { r with core := advanceCore r.core } :=
  Runner.command_of_idle h _

/-- Settles O52: the command is one step of the core, and the lists shown are the cells and their integers. -/
theorem stepAndObserveCommands : Obligations.StepAndObserveCommands := by
  unfold Obligations.StepAndObserveCommands
  refine ⟨fun r t hidle ht => ?_, fun r hidle hs => ?_, fun r hidle => Runner.command_of_idle hidle _,
    fun s i hi => ⟨s.mem.getElem?_cells hi, s.getElem?_values hi⟩, fun s => ⟨s.mem.length_cells, rfl, rfl, rfl⟩⟩
  · rw [Runner.command_step hidle, advanceCore_eq ht]
  · rw [Runner.command_step hidle, advanceCore_stopped hs]

/-! ### Steps of the core and budgeted runs -/

theorem stepsOf_stopped {s : State} (h : s.status ≠ .running) (n : Nat) : stepsOf n s = s := by
  induction n with
  | zero => rfl
  | succ n ih => rw [stepsOf, advanceCore_stopped h, ih]

theorem runBudget_stopped {s : State} (h : s.status ≠ .running) (n : Nat) : runBudget n s = s := by
  cases n with
  | zero => rfl
  | succ n => exact if_neg h

theorem runBudget_succ_running {s : State} (h : s.status = .running) (n : Nat) :
    runBudget (n + 1) s = runBudget n (advanceCore s) :=
  if_pos h

/-- Stopping early is no different from stepping a stopped core on. -/
theorem runBudget_eq_stepsOf (n : Nat) (s : State) : runBudget n s = stepsOf n s := by
  induction n generalizing s with
  | zero => rfl
  | succ n ih =>
    by_cases hs : s.status = .running
    · rw [runBudget_succ_running hs, ih, stepsOf]
    · rw [runBudget_stopped hs, stepsOf_stopped hs]

/-! ### The loop of Run (45_testbench.md R114) -/

/-- A Run that no request ends: it is in progress, or has returned because the core stopped. -/
def Runner.RunsUnasked (r : Runner) : Prop :=
  r.haltRequested = false ∧ (r.core.status = .running → r.runInProgress = true)

theorem Runner.startRun_runsUnasked (r : Runner) : r.startRun.RunsUnasked := ⟨rfl, fun _ => rfl⟩

theorem Runner.tick_of_running {r : Runner} (h : r.RunsUnasked) (hs : r.core.status = .running) :
    r.tick = { r with core := advanceCore r.core } := by
  obtain ⟨hrequest, hprogress⟩ := h
  simp [Runner.tick, hprogress hs, hrequest, hs]

/-- On a stopped core an iteration changes the runner at most by returning. -/
theorem Runner.tick_of_stopped {r : Runner} (hs : r.core.status ≠ .running) :
    r.tick = { r with runInProgress := false } := by
  cases r with
  | mk core haltRequested runInProgress =>
    cases runInProgress with
    | false => rfl
    | true => cases haltRequested with
      | false => exact if_pos hs
      | true => rfl

/-- Every iteration is one step of the core. -/
theorem Runner.tick_runsUnasked {r : Runner} (h : r.RunsUnasked) :
    r.tick.RunsUnasked ∧ r.tick.core = advanceCore r.core := by
  have ⟨hrequest, hprogress⟩ := h
  by_cases hs : r.core.status = .running
  · rw [Runner.tick_of_running h hs]
    exact ⟨⟨hrequest, fun _ => hprogress hs⟩, rfl⟩
  · rw [Runner.tick_of_stopped hs]
    exact ⟨⟨hrequest, fun hr => absurd hr hs⟩, (advanceCore_stopped hs).symm⟩

theorem Runner.ticks_runsUnasked {r : Runner} (h : r.RunsUnasked) (n : Nat) :
    (Runner.ticks n r).RunsUnasked ∧ (Runner.ticks n r).core = stepsOf n r.core := by
  induction n generalizing r with
  | zero => exact ⟨h, rfl⟩
  | succ n ih =>
    obtain ⟨htick, hcore⟩ := Runner.tick_runsUnasked h
    rw [stepsOf, ← hcore]
    exact ih htick

theorem Runner.ticks_succ (n : Nat) (r : Runner) : Runner.ticks (n + 1) r = (Runner.ticks n r).tick := by
  induction n generalizing r with
  | zero => rfl
  | succ n ih => exact ih r.tick

/-- Settles O53: an iteration of a Run nobody ends is a step, and a stopped core makes the next iteration return. -/
theorem runRepeatsSteps : Obligations.RunRepeatsSteps := by
  unfold Obligations.RunRepeatsSteps
  refine ⟨fun r hidle => Runner.command_of_idle hidle _, fun r n => ?core, fun r n hs => ?returns,
    fun r n hs => ?goesOn⟩
  case core => rw [runBudget_eq_stepsOf]; exact (Runner.ticks_runsUnasked r.startRun_runsUnasked n).2
  case returns => rw [Runner.ticks_succ, Runner.tick_of_stopped hs]
  case goesOn =>
    obtain ⟨⟨_, hprogress⟩, _⟩ := Runner.ticks_runsUnasked r.startRun_runsUnasked n
    exact hprogress hs

end Sys2Proof.Machine
end

section
/-! The harness: the machine of a case, its run, its result, and the suite's score (45_testbench.md R119 to R129). -/

namespace Sys2Proof.Machine

/-! ### The clone and the overrides (45_testbench.md R119, R120) -/

theorem cloneMachine_cell? (cfg : Config) (baseline : Memory) {i : Int} (h : inRange i = true) :
    (cloneMachine cfg baseline).mem.cell? i = some (.num (coerce cfg (baseline.peek i.toNat))) := by
  rw [Memory.cell?_of_inRange _ h, cloneMachine, Memory.peek_coerced, if_pos (toNat_lt_memSize h)]

/-- A token as the harness writes it: `Num` of its coerced value. -/
def coercedCell (cfg : Config) (t : Token) : Cell := .num (coerce cfg (tokenCell t))

theorem applyOverrides_eq_writeEntries (entries : List (Nat × Token)) (s : State) :
    applyOverrides entries s = s.setMem (s.mem.writeEntries (coercedCell s.cfg) entries) :=
  applyOverrides_eq entries s

section
variable (entries : List (Nat × Token)) (s : State)

@[simp] theorem applyOverrides_pc : (applyOverrides entries s).pc = s.pc := by simp [applyOverrides_eq]
@[simp] theorem applyOverrides_acc : (applyOverrides entries s).acc = s.acc := by simp [applyOverrides_eq]
@[simp] theorem applyOverrides_status : (applyOverrides entries s).status = s.status := by simp [applyOverrides_eq]
@[simp] theorem applyOverrides_cfg : (applyOverrides entries s).cfg = s.cfg := by simp [applyOverrides_eq]

end

theorem applyOverrides_cell?_of_mem {before : Mapping} {entries : List (Nat × Token)}
    (h : resolveKeys before = some entries) (s : State) {e : Nat × Token} (he : e ∈ entries) :
    (applyOverrides entries s).mem.cell? (e.1 : Int) = some (.num (coerce s.cfg (tokenCell e.2))) := by
  obtain ⟨hlt, hdistinct⟩ := resolveKeys_spec h
  rw [applyOverrides_eq_writeEntries]
  exact Memory.cell?_writeEntries_of_mem _ s.mem hlt hdistinct he

theorem applyOverrides_cell?_of_unnamed {entries : List (Nat × Token)} (s : State) {j : Int}
    (h : ∀ e ∈ entries, (e.1 : Int) ≠ j) : (applyOverrides entries s).mem.cell? j = s.mem.cell? j := by
  rw [applyOverrides_eq_writeEntries]
  exact Memory.cell?_writeEntries_of_unnamed _ s.mem h

/-- Settles O55: the clone's cells are the coerced memory's, and the overrides write the entries and no register. -/
theorem cloneAndOverrides : Obligations.CloneAndOverrides := by
  unfold Obligations.CloneAndOverrides
  refine ⟨fun cfg baseline => ⟨rfl, rfl, rfl, rfl, fun i h0 h100 => ?_⟩, fun s before entries h => ?_⟩
  · exact cloneMachine_cell? cfg baseline ((inRange_iff i).mpr ⟨h0, h100⟩)
  · exact ⟨fun _ => applyOverrides_cell?_of_mem h s, fun _ => applyOverrides_cell?_of_unnamed s,
      applyOverrides_pc entries s, applyOverrides_acc entries s, applyOverrides_status entries s,
      applyOverrides_cfg entries s⟩

/-! ### The run of a case (45_testbench.md R121) -/

theorem runCase_eq {before : Mapping} {entries : List (Nat × Token)} (h : resolveKeys before = some entries)
    (cfg : Config) (baseline : Memory) : runCase cfg baseline before =
      runBudget Config.stepBudget (applyOverrides entries (cloneMachine cfg baseline)) := by
  rw [runCase, mappingEntries_of_resolveKeys h]

/-- A budgeted run counts its steps: each from a running core, fewer than the budget only when the core stopped. -/
theorem exists_stepsOf_runBudget (budget : Nat) (s : State) :
    ∃ n, n ≤ budget ∧ runBudget budget s = stepsOf n s ∧ (∀ m, m < n → (stepsOf m s).status = .running) ∧
      (n < budget → (stepsOf n s).status ≠ .running) := by
  induction budget generalizing s with
  | zero => exact ⟨0, le_rfl, rfl, by simp, by simp⟩
  | succ budget ih =>
    by_cases hs : s.status = .running
    · obtain ⟨n, hle, hrun, hrunning, hstopped⟩ := ih (advanceCore s)
      refine ⟨n + 1, Nat.succ_le_succ hle, (runBudget_succ_running hs budget).trans hrun, fun m hm => ?_,
        fun hlt => hstopped (Nat.lt_of_succ_lt_succ hlt)⟩
      cases m with
      | zero => exact hs
      | succ m => exact hrunning m (Nat.lt_of_succ_lt_succ hm)
    · exact ⟨0, Nat.zero_le _, runBudget_stopped hs _, by simp, fun _ => hs⟩

/-- Settles O56: the count of a budgeted run, taken from the overridden clone. -/
theorem caseRunStaysInTheBudget : Obligations.CaseRunStaysInTheBudget := by
  unfold Obligations.CaseRunStaysInTheBudget
  refine ⟨exists_stepsOf_runBudget Config.stepBudget, fun cfg baseline before entries h => ?_⟩
  obtain ⟨n, hle, hrun, hrunning, hstopped⟩ :=
    exists_stepsOf_runBudget Config.stepBudget (applyOverrides entries (cloneMachine cfg baseline))
  refine ⟨_, n, applyOverrides_pc .., applyOverrides_acc .., applyOverrides_status .., applyOverrides_cfg ..,
    fun _ => applyOverrides_cell?_of_mem h _, fun i h0 h100 hi => ?_, hle, (runCase_eq h cfg baseline).trans hrun,
    hrunning, hstopped⟩
  exact (applyOverrides_cell?_of_unnamed _ hi).trans (cloneMachine_cell? cfg baseline ((inRange_iff i).mpr ⟨h0, h100⟩))

/-! ### The configuration of a case's machine (10_state.md R31) -/

theorem step_cfg {s t : State} (h : step s = .next t) : t.cfg = s.cfg := by
  have keeps : ∀ {u : State}, step s = .next u → u.cfg = s.cfg → t.cfg = s.cfg := by
    intro u hstep hu
    obtain rfl : u = t := by simpa [hstep] using h
    exact hu
  rcases step_cases s with ⟨_, he⟩ | ⟨_, _, he⟩ | ⟨_, _, he⟩ | ⟨_, _, _, _, _, _, he⟩ | ⟨_, _, _, _, _, _, _, _, he⟩ |
    ⟨_, _, _, _, _, he⟩ | ⟨_, _, _, _, _, _, _, _, _, he⟩ | ⟨_, _, _, _, _, he⟩ | ⟨_, _, _, _, he⟩ |
    ⟨_, _, _, _, he⟩ <;> exact keeps he rfl

@[simp] theorem advanceCore_cfg (s : State) : (advanceCore s).cfg = s.cfg := step_cfg (step_eq_advanceCore s)

@[simp] theorem stepsOf_cfg (n : Nat) (s : State) : (stepsOf n s).cfg = s.cfg := by
  induction n generalizing s with
  | zero => rfl
  | succ n ih => rw [stepsOf, ih, advanceCore_cfg]

@[simp] theorem runCase_cfg (cfg : Config) (baseline : Memory) (before : Mapping) :
    (runCase cfg baseline before).cfg = cfg := by
  rw [runCase, runBudget_eq_stepsOf, stepsOf_cfg, applyOverrides_cfg]; rfl

/-! ### The result of a case (45_testbench.md R123, R124) -/

/-- The comparison of a case, as reads of the final state. -/
theorem casePasses_iff {expected : List (Nat × Token)} (hlt : ∀ e ∈ expected, e.1 < 100) (s : State) :
    casePasses expected s = true ↔ ∀ e ∈ expected, s.memRead (e.1 : Int) = some (coerce s.cfg (tokenCell e.2)) := by
  rw [casePasses, List.all_eq_true]
  refine forall₂_congr fun e he => ?_
  rw [State.memRead_of_cell? (s.mem.cell?_natCast (hlt e he)), Option.some.injEq, beq_iff_eq]

theorem gradeCase_pass {c : TestCase} {expected : List (Nat × Token)} (h : resolveKeys c.after = some expected)
    (cfg : Config) (baseline : Memory) :
    (gradeCase cfg baseline c).pass = casePasses expected (runCase cfg baseline c.before) := by
  rw [gradeCase, mappingEntries_of_resolveKeys h]

theorem gradeCase_finalMemory (cfg : Config) (baseline : Memory) (c : TestCase) :
    (gradeCase cfg baseline c).finalMemory =
      (runCase cfg baseline c.before).mem.values (runCase cfg baseline c.before).cfg := by
  rw [runCase_cfg, gradeCase]

/-- Settles O57: the comparison by reads, which an empty mapping makes none of, and the list of final integers. -/
theorem casePassesOnNamedCells : Obligations.CasePassesOnNamedCells := by
  unfold Obligations.CasePassesOnNamedCells
  intro cfg baseline c expected h
  refine ⟨?pass, fun hnil => ?empty, rfl, ?length, fun i hi => ?cell⟩
  case pass =>
    obtain ⟨hlt, _⟩ := resolveKeys_spec h
    rw [gradeCase_pass h, casePasses_iff hlt, runCase_cfg]
  case empty => exact gradeCase_pass (expected := []) (by rw [hnil]; rfl) cfg baseline
  case length => rw [gradeCase_finalMemory, Memory.length_values]
  case cell => rw [gradeCase_finalMemory, State.getElem?_values _ hi]

/-! ### The score and the suite (45_testbench.md R125, R129) -/

/-- The number of passes among some results. -/
def passCount (results : List GradingResult) : Nat := (results.filter fun r => r.pass).length

theorem passCount_le_length (results : List GradingResult) : passCount results ≤ results.length :=
  List.length_filter_le ..

theorem passCount_map (grade : TestCase → GradingResult) (suite : List TestCase) :
    passCount (suite.map grade) = (suite.filter fun c => (grade c).pass).length := by
  rw [passCount, List.filter_map, List.length_map]; rfl

theorem score_of_ne_nil {results : List GradingResult} (h : results ≠ []) :
    score results = some ((passCount results : Rat) / (results.length : Rat)) := by
  simp [score, h, Rat.mkRat_eq_div, passCount]

/-- Some results have a score, the fraction of them that are passes. -/
theorem exists_score {results : List GradingResult} (h : results ≠ []) :
    ∃ q : Rat, score results = some q ∧ 0 ≤ q ∧ q ≤ 1 ∧ q * (results.length : Rat) = (passCount results : Rat) := by
  have hpos : (0 : Rat) < results.length := Nat.cast_pos.mpr (List.length_pos_iff.mpr h)
  have hle : (passCount results : Rat) ≤ results.length := Nat.cast_le.mpr (passCount_le_length results)
  exact ⟨_, score_of_ne_nil h, div_nonneg (Nat.cast_nonneg _) hpos.le, (div_le_one hpos).mpr hle,
    div_mul_cancel₀ _ hpos.ne'⟩

/-- The report of some results: their score, handed to save with the baseline (45_testbench.md R126). -/
def reportOf (baseline : Memory) (results : List GradingResult) : GradingReport :=
  { results := results, score := score results, save := { score := score results, state := baseline } }

theorem gradeSuite_of_wellFormed {suite : List TestCase} (h : ∀ c ∈ suite, c.wellFormed = true) (cfg : Config)
    (baseline : Memory) :
    gradeSuite cfg baseline suite = .next (reportOf baseline (suite.map (gradeCase cfg baseline))) :=
  if_pos (List.all_eq_true.mpr h)

theorem gradeSuite_of_illFormed {suite : List TestCase} (h : ∃ c ∈ suite, c.wellFormed = false) (cfg : Config)
    (baseline : Memory) : gradeSuite cfg baseline suite = .refused .illFormedSuite := by
  refine if_neg fun hall => ?_
  obtain ⟨c, hc, hbad⟩ := h
  simp [List.all_eq_true.mp hall c hc] at hbad

/-- A suite that is graded is well formed, and its report is that of its cases graded one by one. -/
theorem gradeSuite_next {cfg : Config} {baseline : Memory} {suite : List TestCase} {rep : GradingReport}
    (h : gradeSuite cfg baseline suite = .next rep) :
    (∀ c ∈ suite, c.wellFormed = true) ∧ rep = reportOf baseline (suite.map (gradeCase cfg baseline)) := by
  by_cases hwf : ∀ c ∈ suite, c.wellFormed = true
  · rw [gradeSuite_of_wellFormed hwf, Host.Outcome.next.injEq] at h
    exact ⟨hwf, h.symm⟩
  · rw [gradeSuite_of_illFormed (by simpa using hwf)] at h
    cases h

/-- Settles O58: a bad key makes its case ill formed; the report of a well-formed suite, and the fraction that is its
score. -/
theorem scoreOfASuite : Obligations.ScoreOfASuite := by
  unfold Obligations.ScoreOfASuite
  refine fun cfg baseline suite => ⟨fun ⟨c, hc, hbad⟩ => ?refused, fun hwf => ?graded⟩
  case refused => exact gradeSuite_of_illFormed ⟨c, hc, TestCase.not_wellFormed_of_spellsNoIndex hbad⟩ cfg baseline
  case graded =>
    refine ⟨_, gradeSuite_of_wellFormed hwf cfg baseline, List.length_map .., fun k c hk => ?result, fun hnil => ?empty,
      fun hne => ⟨rfl, rfl, ?score⟩⟩
    case result => exact (List.getElem?_map ..).trans (congrArg _ hk)
    case empty => rw [hnil]; rfl
    case score =>
      have hq := exists_score (List.map_eq_nil_iff.not.mpr hne : suite.map (gradeCase cfg baseline) ≠ [])
      rwa [List.length_map, passCount_map] at hq

/-! ### Independence (45_testbench.md R127, R128) -/

/-- The coerced values are all the clone keeps of a baseline. -/
theorem cloneMachine_congr {cfg : Config} {b₁ b₂ : Memory} (h : b₁.values cfg = b₂.values cfg) :
    cloneMachine cfg b₁ = cloneMachine cfg b₂ := by
  have hcell : ∀ i ∈ List.range Config.memSize, coerce cfg (b₁.peek i) = coerce cfg (b₂.peek i) := by
    simpa only [Memory.values, Memory.cells, List.map_map, List.map_inj_left, Function.comp_apply] using h
  have hcoerced : b₁.coerced cfg = b₂.coerced cfg := List.map_congr_left fun i hi => by rw [hcell i hi]
  rw [cloneMachine, hcoerced, cloneMachine]

theorem gradeCase_congr {cfg : Config} {b₁ b₂ : Memory} (h : b₁.values cfg = b₂.values cfg) (c : TestCase) :
    gradeCase cfg b₁ c = gradeCase cfg b₂ c := by
  simp only [gradeCase, runCase, cloneMachine_congr h]

/-- Settles O59: a suite's results are its cases graded one by one, each from a clone of the coerced baseline. -/
theorem casesAreIndependent : Obligations.CasesAreIndependent := by
  unfold Obligations.CasesAreIndependent
  refine ⟨fun cfg baseline xs ys c rep hrep => ?_, fun cfg b₁ b₂ c h => gradeCase_congr h c⟩
  obtain ⟨hwf, rfl⟩ := gradeSuite_next hrep
  have halone : ∀ d ∈ [c], d.wellFormed = true := fun d hd => hwf d (by simp [List.mem_singleton.mp hd])
  have hresult : (reportOf baseline ((xs ++ c :: ys).map (gradeCase cfg baseline))).results[xs.length]? =
      some (gradeCase cfg baseline c) := by
    simp [reportOf]
  exact ⟨_, gradeSuite_of_wellFormed halone cfg baseline, hresult.symm, hresult⟩

end Sys2Proof.Machine
end

section
/-! The exception (60_exceptions.md R131 to R137): which check ends a step, how precise a fault is, and what takes a
core out of a stopped status. -/

namespace Sys2Proof.Machine

/-! ### The outcome of a step, by the first check that applies (60_exceptions.md R135) -/

/-- The condition under which a step of a running core stops it with a status. No condition stops a core with the status
Running. -/
def State.StopsWith (s : State) : Status → Prop
  | .running => False
  | .halted => ∃ op, s.memRead s.pc = some op ∧ (op = 0 ∨ op ∉ validSet s.cfg)
  | .faulted .fetchOpcode i => inRange s.pc = false ∧ i = s.pc
  | .faulted .fetchOperand i =>
      ∃ op, s.memRead s.pc = some op ∧ op ≠ 0 ∧ op ∈ validSet s.cfg ∧ inRange (s.pc + 1) = false ∧ i = s.pc + 1
  | .faulted .dataRead i =>
      ∃ op, s.At op i ∧ op ∈ validSet s.cfg ∧ op ∈ ([161, 50, 51, 52, 53] : List Int) ∧ inRange i = false
  | .faulted .dataWrite i => s.At 160 i ∧ inRange i = false

/-- The data access of the five instructions that read a cell (41_data_transfer.md R89). -/
theorem step_of_no_data_cell {s : State} {op i : Int} (h : s.At op i) (hv : op ∈ validSet s.cfg)
    (hop : op ∈ ([161, 50, 51, 52, 53] : List Int)) (hi : inRange i = false) :
    step s = .next (s.setStatus (.faulted .dataRead i)) := by
  have reads : ∀ (o : Opcode) (f : Int → Int → Int), o ≠ .stop → op = o.code →
      exec (o.build i) s = accFromCell f i s → step s = .next (s.setStatus (.faulted .dataRead i)) := by
    rintro o f ho rfl hexec
    rw [step_of_at ho hv h, hexec, accFromCell_outOfRange f s hi]
  simp only [List.mem_cons, List.not_mem_nil, or_false] at hop
  rcases hop with hop | hop | hop | hop | hop
  · exact reads .load (fun _ v => v) (by decide) hop rfl
  · exact reads .add _ (by decide) hop rfl
  · exact reads .sub _ (by decide) hop rfl
  · exact reads .mul _ (by decide) hop rfl
  · exact reads .div _ (by decide) hop rfl

/-- STORE's data access (41_data_transfer.md R89). -/
theorem step_of_no_store_cell {s : State} {i : Int} (h : s.At 160 i) (hi : inRange i = false) :
    step s = .next (s.setStatus (.faulted .dataWrite i)) :=
  (step_of_at_base (o := .store) (by decide) (by decide) h).trans (cellFromValue_outOfRange s.acc s hi)

/-- Each condition, once met, decides the whole next state. -/
theorem step_of_stopsWith {s : State} {v : Status} (hs : s.status = .running) (h : s.StopsWith v) :
    step s = .next (s.setStatus v) := by
  cases v with
  | running => exact h.elim
  | halted =>
    obtain ⟨_, hop, hhalt⟩ := h
    exact step_of_halting_opcode hs hop hhalt
  | faulted kind i => cases kind with
    | fetchOpcode =>
      obtain ⟨hpc, rfl⟩ := h
      exact step_of_no_opcode_cell hs hpc
    | fetchOperand =>
      obtain ⟨_, hop, h0, hv, hn, rfl⟩ := h
      exact step_of_no_operand_cell hs hop h0 hv hn
    | dataRead =>
      obtain ⟨_, hat, hv, hop, hi⟩ := h
      exact step_of_no_data_cell hat hv hop hi
    | dataWrite =>
      obtain ⟨hat, hi⟩ := h
      exact step_of_no_store_cell hat hi

/-- A step of a running core goes on Running, or one of the conditions holds. -/
theorem step_runs_or_stopsWith {s : State} (hs : s.status = .running) :
    (∃ t, step s = .next t ∧ t.status = .running) ∨ ∃ v, s.StopsWith v := by
  rcases step_cases s with ⟨hn, _⟩ | ⟨_, hpc, _⟩ | ⟨_, hhalt, _⟩ | ⟨op, _, hop, h0, hv, hn, _⟩ |
    ⟨op, a, _, hop, ha, hv, hmem, hr, _⟩ | ⟨a, _, hop, ha, hr, _⟩ | ⟨_, _, _, _, _, _, _, _, _, he⟩ |
    ⟨_, _, _, _, _, he⟩ | ⟨_, _, _, _, he⟩ | ⟨_, _, _, _, he⟩
  · exact absurd hs hn
  · exact .inr ⟨.faulted .fetchOpcode _, hpc, rfl⟩
  · exact .inr ⟨.halted, hhalt⟩
  · exact .inr ⟨.faulted .fetchOperand _, op, hop, h0, hv, hn, rfl⟩
  · exact .inr ⟨.faulted .dataRead a, op, ⟨hs, hop, ha⟩, hv, hmem, hr⟩
  · exact .inr ⟨.faulted .dataWrite a, ⟨hs, hop, ha⟩, hr⟩
  · exact .inl ⟨_, he, hs⟩
  · exact .inl ⟨_, he, hs⟩
  · exact .inl ⟨_, he, hs⟩
  · exact .inl ⟨_, he, hs⟩

/-- The status a step stops with is the one whose condition holds. -/
theorem step_status_eq_iff {s t : State} {v : Status} (hs : s.status = .running) (hstep : step s = .next t)
    (hv : v ≠ .running) : t.status = v ↔ s.StopsWith v := by
  constructor
  · rintro rfl
    rcases step_runs_or_stopsWith hs with ⟨u, hu, hrun⟩ | ⟨w, hw⟩
    · obtain rfl : u = t := Host.Outcome.next.inj (hu.symm.trans hstep)
      exact absurd hrun hv
    · obtain rfl : s.setStatus w = t := Host.Outcome.next.inj ((step_of_stopsWith hs hw).symm.trans hstep)
      exact hw
  · intro h
    obtain rfl : s.setStatus v = t := Host.Outcome.next.inj ((step_of_stopsWith hs h).symm.trans hstep)
    rfl

/-- Settles O21: each clause is the condition of its own status. -/
theorem stepOutcomePriority : Obligations.StepOutcomePriority := by
  unfold Obligations.StepOutcomePriority
  refine ⟨fun s => step_of_stopped, fun s t hs hstep => ?_⟩
  have outcome : ∀ v : Status, v ≠ .running → (t.status = v ↔ s.StopsWith v) := fun _ => step_status_eq_iff hs hstep
  exact ⟨fun i => outcome (.faulted .fetchOpcode i) (by simp), outcome .halted (by simp),
    fun i => outcome (.faulted .fetchOperand i) (by simp), fun i => outcome (.faulted .dataRead i) (by simp),
    fun i => outcome (.faulted .dataWrite i) (by simp)⟩

/-! ### The fault (60_exceptions.md R133, R136) -/

/-- The index a fault records names no cell. -/
theorem State.StopsWith.not_inRange {s : State} {kind : AccessKind} {i : Int} (h : s.StopsWith (.faulted kind i)) :
    inRange i = false := by
  cases kind with
  | fetchOpcode =>
    obtain ⟨hpc, rfl⟩ := h
    exact hpc
  | fetchOperand =>
    obtain ⟨_, _, _, _, hn, rfl⟩ := h
    exact hn
  | dataRead =>
    obtain ⟨_, _, _, _, hi⟩ := h
    exact hi
  | dataWrite =>
    obtain ⟨_, hi⟩ := h
    exact hi

/-- Settles O27: the condition of the fault gives the index and the next state, and a stopped core steps to itself. -/
theorem faultIsPreciseAndSticky : Obligations.FaultIsPreciseAndSticky := by
  unfold Obligations.FaultIsPreciseAndSticky
  intro s t kind i hs hstep ht
  have hstops : s.StopsWith (.faulted kind i) := (step_status_eq_iff hs hstep (by simp)).mp ht
  have hprecise : t = s.setStatus (.faulted kind i) :=
    Host.Outcome.next.inj (hstep.symm.trans (step_of_stopsWith hs hstops))
  exact ⟨hstops.not_inRange, hprecise, stepsOf_stopped (by simp [ht])⟩

/-! ### The way out of a stopped status (60_exceptions.md R137, 45_testbench.md R112) -/

/-- An accepted command does what it does while no Run is in progress. -/
theorem Runner.idleCommand_of_command {r q : Runner} {c : Command} (h : r.command c = .next q) :
    r.idleCommand c = .next q := by
  unfold Runner.command at h
  split at h
  · cases h
  · exact h

/-- An accepted Load replaces the memory alone. -/
theorem Runner.load_next {r q : Runner} {p : Mapping} (h : r.load p = .next q) :
    ∃ m, q = { r with core := r.core.setMem m } := by
  unfold Runner.load at h
  split at h
  · cases h
  · exact ⟨_, (Host.Outcome.next.inj h).symm⟩

/-- An accepted EditCell replaces the memory alone. -/
theorem Runner.editCell_next {r q : Runner} {i : Int} {content : Cell} (h : r.editCell i content = .next q) :
    ∃ m, q = { r with core := r.core.setMem m } := by
  unfold Runner.editCell at h
  split at h
  · exact ⟨_, (Host.Outcome.next.inj h).symm⟩
  · cases h

/-- Of the commands only Reset writes the status itself, and Step does so only on a running core. -/
theorem Runner.idleCommand_status {r q : Runner} {c : Command} (hs : r.core.status ≠ .running) (hc : c ≠ .reset)
    (h : r.idleCommand c = .next q) : q.core.status = r.core.status := by
  have keeps : ∀ {u : Runner}, r.idleCommand c = .next u → u.core.status = r.core.status →
      q.core.status = r.core.status := by
    intro u hcommand hu
    obtain rfl : u = q := Host.Outcome.next.inj (hcommand.symm.trans h)
    exact hu
  cases c with
  | load p =>
    obtain ⟨_, rfl⟩ := Runner.load_next (p := p) h
    rfl
  | editCell i content =>
    obtain ⟨_, rfl⟩ := Runner.editCell_next (i := i) (content := content) h
    rfl
  | setPc => exact keeps rfl rfl
  | setAcc => exact keeps rfl rfl
  | reset => exact absurd rfl hc
  | step => exact keeps rfl (congrArg State.status (advanceCore_stopped hs))
  | run => exact keeps rfl rfl
  | requestHalt => exact keeps rfl rfl
  | observe => exact keeps rfl rfl

/-- Settles O51: Reset by its equation, the other commands one by one, and an iteration of Run at most returns. -/
theorem onlyResetLeavesAStoppedStatus : Obligations.OnlyResetLeavesAStoppedStatus := by
  unfold Obligations.OnlyResetLeavesAStoppedStatus
  refine ⟨fun r hidle => ?reset, fun r q c hs hc h => ?otherCommand, fun r hs => ?iteration⟩
  case reset => exact ⟨_, Runner.command_of_idle hidle _, rfl, rfl, rfl, fun _ => rfl⟩
  case otherCommand => exact Runner.idleCommand_status hs hc (Runner.idleCommand_of_command h)
  case iteration => rw [Runner.tick_of_stopped hs]

end Sys2Proof.Machine
end

section
/-! Self-modifying code: what the step after a STORE reads (70_reset_and_hazards.md R156). -/

namespace Sys2Proof.Machine

/-- A STORE in range writes its one cell and goes on (41_data_transfer.md R90). -/
theorem step_of_store_inRange {s : State} {a : Int} (h : s.At 160 a) (ha : inRange a = true) :
    step s = .next (s.setMem (s.mem.poke a.toNat (.num s.acc))).advancePc :=
  (step_of_at_base (o := .store) (by decide) (by decide) h).trans (cellFromValue_inRange s.acc s ha)

theorem State.memRead_setMem_poke_self (s : State) {i : Int} (v : Int) (hi : inRange i = true) :
    (s.setMem (s.mem.poke i.toNat (.num v))).memRead i = some v :=
  State.memRead_of_cell? (s := s.setMem _) (s.mem.cell?_poke_self (.num v) hi)

theorem State.memRead_setMem_poke_of_ne (s : State) {i j : Int} (c : Cell) (hi : inRange i = true) (hj : j ≠ i) :
    (s.setMem (s.mem.poke i.toNat c)).memRead j = s.memRead j :=
  congrArg (Option.map (coerce s.cfg)) (s.mem.cell?_poke_of_ne c hi hj)

/-- Settles O29: the state after the STORE runs and reads ACC at the stored cell and the old integers elsewhere, so the
halt check or the dispatch of its own step applies. -/
theorem storedCellIsFetchedNext : Obligations.StoredCellIsFetchedNext := by
  unfold Obligations.StoredCellIsFetchedNext
  intro s t a hat ha hstep
  have ht : (s.setMem (s.mem.poke a.toNat (.num s.acc))).advancePc = t :=
    Host.Outcome.next.inj ((step_of_store_inRange hat ha).symm.trans hstep)
  have hs : t.status = .running := ht ▸ hat.1
  have hcfg : t.cfg = s.cfg := ht ▸ rfl
  have hstored : t.memRead a = some s.acc := ht ▸ s.memRead_setMem_poke_self s.acc ha
  have hother : ∀ j, j ≠ a → t.memRead j = s.memRead j := fun _ hj =>
    ht ▸ s.memRead_setMem_poke_of_ne (.num s.acc) ha hj
  refine ⟨hstored, fun hpc hhalt => ?halts, fun o b hpc ho hacc hv hb => ?opcode, fun o hpc ho hv hop => ?operand⟩
  case halts =>
    rw [hpc] at hstored
    exact step_of_halting_opcode hs hstored (hcfg ▸ hhalt)
  case opcode =>
    rw [hpc, hacc] at hstored
    exact step_of_at ho (hcfg ▸ hv) ⟨hs, hstored, (hother _ (by omega)).trans hb⟩
  case operand =>
    rw [hpc] at hstored
    exact step_of_at ho (hcfg ▸ hv) ⟨hs, (hother _ (by omega)).trans hop, hstored⟩

end Sys2Proof.Machine
end

section
/-! The encoder against the decoder, and the step at an encoded instruction (30_encoding.md sections 1 and 3,
40_cycle.md R82). -/

namespace Sys2Proof

/-! ### Decode and encode -/

/-- The integer encoding is one of the spellings the decoder reads by value. -/
theorem decodeCells_encode {cfg : Config} {i : Instr} (rest : List Cell) (hw : i.wellFormed cfg = true) :
    decodeCells cfg (encode i ++ rest) = .instr i rest :=
  decodeCells_of_coerce rest hw (coerce_num cfg _) (map_coerce_num_operand cfg _)

/-- Settles O38: the encoding's cells coerce to the opcode and the operand, which is all the decoder reads. -/
theorem decodeOfEncode : Obligations.DecodeOfEncode := by
  unfold Obligations.DecodeOfEncode
  exact fun _ _ rest hw => decodeCells_encode rest hw

/-- Settles O41: the words are encodings of instructions well formed in their dialect. -/
theorem wordsOfTheOpcodeMap : Obligations.WordsOfTheOpcodeMap := by
  unfold Obligations.WordsOfTheOpcodeMap
  exact ⟨decodeCells_encode (i := .stop) [] rfl, decodeCells_encode (i := .load 99) [] rfl,
    decodeCells_encode (i := .addi (-8)) [] rfl, decodeCells_encode (i := .mul 31) [] rfl,
    decodeCells_encode (i := .jpos 2) [] rfl⟩

theorem encode_build {o : Opcode} (ho : o ≠ .stop) (a : Int) : encode (o.build a) = [.num o.code, .num a] := by
  simp [encode, Opcode.build_opcode, Opcode.build_operand? ho]

/-- Settles O39: of the decoder's answers two are instructions, STOP from one cell and the others from two. -/
theorem encodeOfDecode : Obligations.EncodeOfDecode := by
  unfold Obligations.EncodeOfDecode
  intro cfg cells rest i h
  rcases decodeCells_cases cfg cells with ⟨_, he⟩ | ⟨_, _, _, _, he⟩ | ⟨c, r, rfl, hc, he⟩ | ⟨_, _, _, _, _, _, he⟩ |
    ⟨c, d, r, o, rfl, ho, hc, hv, he⟩
  · cases he.symm.trans h
  · cases he.symm.trans h
  · obtain ⟨rfl, rfl⟩ := Decoded.instr.inj (he.symm.trans h)
    exact ⟨rfl, [c], rfl, by simp [hc, encode, Instr.opcode, Opcode.code, Instr.operand?]⟩
  · cases he.symm.trans h
  · obtain ⟨rfl, rfl⟩ := Decoded.instr.inj (he.symm.trans h)
    have hw : (o.build (coerce cfg d)).wellFormed cfg = true := by
      rwa [← Instr.code_mem_validSet, Opcode.build_opcode]
    exact ⟨hw, [c, d], rfl, by simp [encode_build ho, hc]⟩

end Sys2Proof

namespace Sys2Proof.Machine

/-! ### The step at decoded cells -/

theorem fetch_of_decodeCells {s : State} {i : Instr} {rest : List Cell}
    (h : decodeCells s.cfg (s.mem.cellsFrom s.pc) = .instr i rest) : fetch s = .instr i := by
  rw [fetch, h]

/-- Settles O16: the fetch is the decoder at PC, and the step runs what the fetch finds. -/
theorem stepRunsTheDecodedInstruction : Obligations.StepRunsTheDecodedInstruction := by
  unfold Obligations.StepRunsTheDecodedInstruction
  exact fun _ _ _ hs h => step_of_fetch_instr hs (fetch_of_decodeCells h)

/-- Settles O17: STOP is fetched from its opcode cell alone; any other instruction is rebuilt from its two cells. -/
theorem stepRunsTheEncodedInstruction : Obligations.StepRunsTheEncodedInstruction := by
  unfold Obligations.StepRunsTheEncodedInstruction
  intro s i hs hw hopcode hoperand
  have hop : s.memRead s.pc = some i.opcode.code := State.memRead_of_cell? hopcode
  cases hi : i.operand? with
  | none =>
    obtain rfl := Instr.operand?_eq_none.mp hi
    exact step_of_fetch_instr hs (fetch_stop hop)
  | some a =>
    have ha : s.memRead (s.pc + 1) = some a := State.memRead_of_cell? (hoperand a hi)
    have hstop : i.opcode ≠ .stop := fun h => by simp [Instr.opcode_eq_stop.mp h, Instr.operand?] at hi
    rw [step_of_at hstop (i.code_mem_validSet.mpr hw) ⟨hs, hop, ha⟩, Instr.build_of_operand? hi]

end Sys2Proof.Machine
end

section
/-! The frames: what each shared operation, and the step as a whole, leaves unchanged (20_memory.md section 2,
40_cycle.md R87). -/

namespace Sys2Proof.Machine

/-! ### The instructions -/

/-- The frame of LOAD and of the arithmetic on one data cell. -/
theorem accFromCell_frame {f : Int → Int → Int} {a : Int} {s t : State} (h : accFromCell f a s = .next t) :
    s.SameCells t ∧ t.cfg = s.cfg ∧ (inRange a = true → t.status = s.status) ∧
      (inRange a = false → t.acc = s.acc ∧ t.pc = s.pc) := by
  cases hr : inRange a with
  | true =>
    obtain rfl := Host.Outcome.next.inj ((accFromCell_inRange f s hr).symm.trans h)
    exact ⟨fun _ => rfl, rfl, fun _ => rfl, by simp⟩
  | false =>
    obtain rfl := Host.Outcome.next.inj ((accFromCell_outOfRange f s hr).symm.trans h)
    exact ⟨fun _ => rfl, rfl, by simp, fun _ => ⟨rfl, rfl⟩⟩

theorem accFromImmediate_frame {f : Int → Int → Int} {a : Int} {s t : State} (h : accFromImmediate f a s = .next t) :
    s.SameCells t ∧ t.cfg = s.cfg ∧ t.status = s.status := by
  obtain rfl := Host.Outcome.next.inj ((accFromImmediate_eq f a s).symm.trans h)
  exact ⟨fun _ => rfl, rfl, rfl⟩

/-- The frame of the write to one data cell. -/
theorem cellFromValue_frame {v a : Int} {s t : State} (h : cellFromValue v a s = .next t) :
    t.acc = s.acc ∧ t.cfg = s.cfg ∧ (∀ j : Int, j ≠ a → t.mem.cell? j = s.mem.cell? j) ∧
      (inRange a = true → t.status = s.status) ∧ (inRange a = false → s.SameCells t ∧ t.pc = s.pc) := by
  cases hr : inRange a with
  | true =>
    obtain rfl := Host.Outcome.next.inj ((cellFromValue_inRange v s hr).symm.trans h)
    exact ⟨rfl, rfl, fun _ => s.mem.cell?_poke_of_ne (.num v) hr, fun _ => rfl, by simp⟩
  | false =>
    obtain rfl := Host.Outcome.next.inj ((cellFromValue_outOfRange v s hr).symm.trans h)
    exact ⟨rfl, rfl, fun _ _ => rfl, by simp, fun _ => ⟨fun _ => rfl, rfl⟩⟩

/-- Settles O13: the frames of the two shared operations that compute ACC. -/
theorem accumulatorInstructionsFrame : Obligations.AccumulatorInstructionsFrame := by
  unfold Obligations.AccumulatorInstructionsFrame
  refine fun s t a => ⟨fun i hi h => ?immediate, fun i hi h => ?cell⟩
  case immediate =>
    simp only [List.mem_cons, List.not_mem_nil, or_false] at hi
    rcases hi with rfl | rfl
    · exact accFromImmediate_frame h
    · exact accFromImmediate_frame h
  case cell =>
    simp only [List.mem_cons, List.not_mem_nil, or_false] at hi
    rcases hi with rfl | rfl | rfl | rfl | rfl
    · exact accFromCell_frame (f := fun _ v => v) h
    · exact accFromCell_frame h
    · exact accFromCell_frame h
    · exact accFromCell_frame h
    · exact accFromCell_frame h

/-- Settles O14: a branch sets PC alone and STOP the status alone. -/
theorem branchAndStopFrame : Obligations.BranchAndStopFrame := by
  unfold Obligations.BranchAndStopFrame
  intro s t a
  have jpos : exec (.jpos a) s = .next t → ∃ pc, t = s.setPc pc := fun h =>
    ⟨_, Host.Outcome.next.inj (h.symm.trans (exec_jpos a s))⟩
  have jzero : exec (.jzero a) s = .next t → ∃ pc, t = s.setPc pc := fun h =>
    ⟨_, Host.Outcome.next.inj (h.symm.trans (exec_jzero a s))⟩
  have stop : exec .stop s = .next t → t = s.setStatus .halted := fun h => (Host.Outcome.next.inj h).symm
  refine ⟨fun i hi h => ?all, fun i hi h => ?branches, fun h => ?stop⟩
  case all =>
    simp only [List.mem_cons, List.not_mem_nil, or_false] at hi
    rcases hi with rfl | rfl | rfl
    · obtain ⟨_, rfl⟩ := jpos h
      exact ⟨fun _ => rfl, rfl, rfl⟩
    · obtain ⟨_, rfl⟩ := jzero h
      exact ⟨fun _ => rfl, rfl, rfl⟩
    · obtain rfl := stop h
      exact ⟨fun _ => rfl, rfl, rfl⟩
  case branches =>
    simp only [List.mem_cons, List.not_mem_nil, or_false] at hi
    rcases hi with rfl | rfl
    · obtain ⟨_, rfl⟩ := jpos h
      rfl
    · obtain ⟨_, rfl⟩ := jzero h
      rfl
  case stop => rw [stop h, State.setStatus_pc]

/-- Settles O15: the frame of the shared operation that writes one cell. -/
theorem storeFrame : Obligations.StoreFrame := by
  unfold Obligations.StoreFrame
  exact fun _ _ _ => cellFromValue_frame

/-! ### The step -/

/-- The one place a step writes (40_cycle.md R87): the status alone, or on a core that goes on Running PC with ACC, with
one cell by a STORE, or with nothing else. -/
theorem step_writes {s t : State} (h : step s = .next t) :
    (∃ v, t = s.setStatus v) ∨ (s.status = .running ∧ ∃ v, t = (s.setAcc v).advancePc) ∨
      (∃ a, s.At 160 a ∧ inRange a = true ∧ t = (s.setMem (s.mem.poke a.toNat (.num s.acc))).advancePc) ∨
      (s.status = .running ∧ ∃ pc, t = s.setPc pc) := by
  have answers : ∀ {u : State}, step s = .next u → t = u := fun hu => Host.Outcome.next.inj (h.symm.trans hu)
  rcases step_cases s with ⟨_, he⟩ | ⟨_, _, he⟩ | ⟨_, _, he⟩ | ⟨_, _, _, _, _, _, he⟩ | ⟨_, _, _, _, _, _, _, _, he⟩ |
    ⟨_, _, _, _, _, he⟩ | ⟨_, _, _, hs, _, _, _, _, _, he⟩ | ⟨a, hs, hop, ha, hr, he⟩ | ⟨_, hs, _, _, he⟩ |
    ⟨_, hs, _, _, he⟩
  · exact .inl ⟨s.status, answers he⟩
  · exact .inl ⟨_, answers he⟩
  · exact .inl ⟨_, answers he⟩
  · exact .inl ⟨_, answers he⟩
  · exact .inl ⟨_, answers he⟩
  · exact .inl ⟨_, answers he⟩
  · exact .inr (.inl ⟨hs, _, answers he⟩)
  · exact .inr (.inr (.inl ⟨a, ⟨hs, hop, ha⟩, hr, answers he⟩))
  · exact .inr (.inr (.inr ⟨hs, _, answers he⟩))
  · exact .inr (.inr (.inr ⟨hs, _, answers he⟩))

/-- A cell that a step changes is the one its STORE names (20_memory.md section 2). -/
theorem at_store_of_cell_changed {s t : State} {j : Int} (h : step s = .next t)
    (hj : t.mem.cell? j ≠ s.mem.cell? j) : s.At 160 j ∧ t.mem.cell? j = some (.num s.acc) := by
  rcases step_writes h with ⟨_, rfl⟩ | ⟨_, _, rfl⟩ | ⟨a, hat, hr, rfl⟩ | ⟨_, _, rfl⟩
  · exact absurd rfl hj
  · exact absurd rfl hj
  · obtain rfl : j = a := by
      by_contra hne
      exact hj (s.mem.cell?_poke_of_ne (.num s.acc) hr hne)
    exact ⟨hat, s.mem.cell?_poke_self (.num s.acc) hr⟩
  · exact absurd rfl hj

/-- Settles O25: of the places a step writes only the STORE's is a cell. -/
theorem onlyStoreChangesACell : Obligations.OnlyStoreChangesACell := by
  unfold Obligations.OnlyStoreChangesACell
  exact fun _ _ _ => at_store_of_cell_changed

/-- Settles O24: the places a step writes one by one, and two changed cells are both the operand of the one STORE. -/
theorem stepWritesAtMostOnePlace : Obligations.StepWritesAtMostOnePlace := by
  unfold Obligations.StepWritesAtMostOnePlace
  refine fun s t h => ⟨?accOrCells, fun j k hj hk => ?oneCell, fun ht => ?stopped⟩
  case accOrCells =>
    rcases step_writes h with ⟨_, rfl⟩ | ⟨_, _, rfl⟩ | ⟨_, _, _, rfl⟩ | ⟨_, _, rfl⟩
    · exact .inl rfl
    · exact .inr fun _ => rfl
    · exact .inl rfl
    · exact .inl rfl
  case oneCell =>
    obtain ⟨⟨_, _, hoperandj⟩, _⟩ := at_store_of_cell_changed h hj
    obtain ⟨⟨_, _, hoperandk⟩, _⟩ := at_store_of_cell_changed h hk
    exact Option.some.inj (hoperandj.symm.trans hoperandk)
  case stopped =>
    rcases step_writes h with ⟨_, rfl⟩ | ⟨hs, _, rfl⟩ | ⟨_, ⟨hs, _, _⟩, _, rfl⟩ | ⟨hs, _, rfl⟩
    · exact ⟨rfl, rfl, fun _ => rfl⟩
    · exact absurd hs ht
    · exact absurd hs ht
    · exact absurd hs ht

/-- Settles O34: the configuration is kept in every case of a step. -/
theorem stepKeepsTheConfiguration : Obligations.StepKeepsTheConfiguration := by
  unfold Obligations.StepKeepsTheConfiguration
  exact fun _ _ => step_cfg

end Sys2Proof.Machine
end

section
/-! The invariants of a step: canonical memory, the truthful status, and the self-loop (20_memory.md sections 1 and 3,
60_exceptions.md R131, R132, 70_reset_and_hazards.md R160). -/

namespace Sys2Proof.Machine

/-! ### The structural invariant -/

theorem State.Inv.poke {s : State} (h : s.Inv) {i : Int} (hi : inRange i = true) (c : Cell) :
    (s.setMem (s.mem.poke i.toNat c)).Inv := by
  obtain ⟨hmem, hcfg⟩ := h
  exact ⟨Memory.wf_poke hmem (toNat_lt_memSize hi) c, hcfg⟩

/-- The invariant speaks of memory and configuration alone, and the one memory write of a step is a cell in range. -/
theorem State.Inv.step {s t : State} (h : s.Inv) (hstep : step s = .next t) : t.Inv := by
  rcases step_writes hstep with ⟨_, rfl⟩ | ⟨_, _, rfl⟩ | ⟨_, _, hr, rfl⟩ | ⟨_, _, rfl⟩
  · exact h
  · exact h
  · exact h.poke hr (.num s.acc)
  · exact h

/-- Settles O31: the places a step writes one by one. -/
theorem stepKeepsTheInvariant : Obligations.StepKeepsTheInvariant := by
  unfold Obligations.StepKeepsTheInvariant
  exact fun _ _ => State.Inv.step

/-- Settles O32: the empty memory is canonical, the table of the extended dialect well formed, the status Running. -/
theorem resetMeetsTheInvariants : Obligations.ResetMeetsTheInvariants := by
  unfold Obligations.ResetMeetsTheInvariants
  exact ⟨⟨Memory.wf_nil, by decide⟩, trivial⟩

/-! ### The truthful status -/

/-- The condition that stops a core explains the status it stops with, as the status alone changes. -/
theorem State.StopsWith.statusExplained {s : State} {v : Status} (h : s.StopsWith v) :
    (s.setStatus v).StatusExplained := by
  cases v with
  | running => trivial
  | halted => exact h
  | faulted kind i => cases kind with
    | fetchOpcode =>
      obtain ⟨hpc, rfl⟩ := h
      exact ⟨rfl, hpc⟩
    | fetchOperand =>
      obtain ⟨op, hop, h0, hv, hn, rfl⟩ := h
      have hpc := pc_eq_of_no_operand_cell (State.inRange_of_memRead hop) hn
      exact ⟨hpc, by omega, op, hpc ▸ hop, hv, h0⟩
    | dataRead =>
      obtain ⟨op, ⟨_, hop, ha⟩, hv, hmem, hi⟩ := h
      exact ⟨hi, ha, op, hop, hv, hmem⟩
    | dataWrite =>
      obtain ⟨⟨_, hop, ha⟩, hi⟩ := h
      exact ⟨hi, ha, hop⟩

/-- Settles O33: a stopped core keeps its state, a Running status needs no explanation, and a core that a step stops met
the condition of its status. -/
theorem stepKeepsTheStatusExplained : Obligations.StepKeepsTheStatusExplained := by
  unfold Obligations.StepKeepsTheStatusExplained
  intro s t hexplained hstep
  by_cases hs : s.status = .running
  · by_cases ht : t.status = .running
    · simp [State.StatusExplained, ht]
    · have hstops : s.StopsWith t.status := (step_status_eq_iff hs hstep ht).mp rfl
      have hprecise : t = s.setStatus t.status :=
        Host.Outcome.next.inj (hstep.symm.trans (step_of_stopsWith hs hstops))
      rw [hprecise]
      exact hstops.statusExplained
  · obtain rfl : s = t := Host.Outcome.next.inj ((step_of_stopped hs).symm.trans hstep)
    exact hexplained

/-! ### The self-loop -/

/-- A state that steps to itself is what every run from it answers. -/
theorem run_of_step_self {M : Host.Core} {s : M.State} (h : M.step s = .next s) (n : Nat) : M.run n s = .next s := by
  induction n with
  | zero => rfl
  | succ n ih =>
    rw [Host.Core.run, h]
    exact ih

/-- Settles O30: a taken branch to its own index steps to the state it started from. -/
theorem branchToItselfNeverEnds : Obligations.BranchToItselfNeverEnds := by
  unfold Obligations.BranchToItselfNeverEnds
  intro s h n
  exact ⟨run_of_step_self (M := Sys2Proof.core) (step_of_takesBranch_self h) n, State.TakesBranch.running h⟩

end Sys2Proof.Machine
end

section
/-! Coercing every cell once: the coerced state simulates the raw one, operation by operation (10_state.md R36). -/

namespace Sys2Proof.Machine

/-- At a state, an operation answers a next state, and at the coerced state it answers the coerced next state. -/
def CommutesWithCoercion (f : State → Result) (s : State) : Prop :=
  ∃ t, f s = .next t ∧ f s.coerced = .next t.coerced

theorem State.coerced_valueAt (s : State) {i : Int} (h : inRange i = true) : s.coerced.valueAt i = s.valueAt i :=
  State.valueAt_of_memRead ((s.coerced_memRead i).trans (s.memRead_eq_valueAt h))

theorem State.coerced_setMem_poke (s : State) {i : Int} (h : inRange i = true) (v : Int) :
    (s.setMem (s.mem.poke i.toNat (.num v))).coerced =
      s.coerced.setMem (s.coerced.mem.poke i.toNat (.num v)) := by
  simp [State.coerced, State.setMem, Memory.coerced_poke _ _ (toNat_lt_memSize h)]

/-! ### The shared operations -/

theorem setStatus_commutesWithCoercion (v : Status) (s : State) :
    CommutesWithCoercion (fun s => .next (s.setStatus v)) s := ⟨_, rfl, rfl⟩

theorem accFromImmediate_commutesWithCoercion (f : Int → Int → Int) (a : Int) (s : State) :
    CommutesWithCoercion (accFromImmediate f a) s := ⟨_, accFromImmediate_eq f a s, rfl⟩

/-- The data cell is read by value, which coercion keeps. -/
theorem accFromCell_commutesWithCoercion (f : Int → Int → Int) (a : Int) (s : State) :
    CommutesWithCoercion (accFromCell f a) s := by
  cases hr : inRange a with
  | false => exact ⟨_, accFromCell_outOfRange f s hr, accFromCell_outOfRange f s.coerced hr⟩
  | true =>
    have hv := s.coerced_valueAt hr
    exact ⟨_, accFromCell_of_valueAt f hr rfl rfl, accFromCell_of_valueAt f hr hv rfl⟩

/-- The data cell is written as an integer, which is its own coercion. -/
theorem cellFromValue_commutesWithCoercion (v a : Int) (s : State) :
    CommutesWithCoercion (cellFromValue v a) s := by
  cases hr : inRange a with
  | false => exact ⟨_, cellFromValue_outOfRange v s hr, cellFromValue_outOfRange v s.coerced hr⟩
  | true =>
    refine ⟨_, cellFromValue_inRange v s hr, (cellFromValue_inRange v s.coerced hr).trans ?_⟩
    rw [← s.coerced_setMem_poke hr v]
    rfl

theorem branchIf_commutesWithCoercion (taken : Bool) (a : Int) (s : State) :
    CommutesWithCoercion (branchIf taken a) s := ⟨_, branchIf_eq taken a s, branchIf_eq taken a s.coerced⟩

/-! ### The instructions and the step -/

theorem exec_commutesWithCoercion (i : Instr) (s : State) : CommutesWithCoercion (exec i) s := by
  cases i with
  | stop => exact setStatus_commutesWithCoercion .halted s
  | addi a => exact accFromImmediate_commutesWithCoercion _ a s
  | subi a => exact accFromImmediate_commutesWithCoercion _ a s
  | add a => exact accFromCell_commutesWithCoercion _ a s
  | sub a => exact accFromCell_commutesWithCoercion _ a s
  | mul a => exact accFromCell_commutesWithCoercion _ a s
  | div a => exact accFromCell_commutesWithCoercion divideOrKeep a s
  | load a => exact accFromCell_commutesWithCoercion (fun _ v => v) a s
  | store a => exact cellFromValue_commutesWithCoercion s.acc a s
  | jpos a => exact branchIf_commutesWithCoercion (accPositive s) a s
  | jzero a => exact branchIf_commutesWithCoercion (accZero s) a s

/-- A fetch reads the cells by value. -/
theorem fetch_coerced (s : State) : fetch s.coerced = fetch s := by
  have read : ∀ {i v : Int}, s.memRead i = some v → s.coerced.memRead i = some v := (s.coerced_memRead _).trans
  rcases fetch_cases s with ⟨hpc, hf⟩ | ⟨op, hop, hv, hf⟩ | ⟨hop, hf⟩ | ⟨o, ho, hop, hv, hn, hf⟩ |
    ⟨o, a, ho, hop, hv, ha, hf⟩
  · exact (fetch_outOfRange (s := s.coerced) hpc).trans hf.symm
  · exact (fetch_invalid (s := s.coerced) (read hop) hv).trans hf.symm
  · exact (fetch_stop (s := s.coerced) (read hop)).trans hf.symm
  · exact (fetch_noOperand (s := s.coerced) ho (read hop) hv hn).trans hf.symm
  · exact (fetch_instr (s := s.coerced) ho (read hop) hv (read ha)).trans hf.symm

/-- Both states fetch the same, and what they fetch commutes. -/
theorem step_commutesWithCoercion (s : State) : CommutesWithCoercion step s := by
  by_cases hs : s.status = .running
  · have hs' : s.coerced.status = .running := hs
    have hf' := fetch_coerced s
    cases hf : fetch s with
    | instr i =>
      rw [hf] at hf'
      obtain ⟨t, ht, ht'⟩ := exec_commutesWithCoercion i s
      exact ⟨t, (step_of_fetch_instr hs hf).trans ht, (step_of_fetch_instr hs' hf').trans ht'⟩
    | invalid op =>
      rw [hf] at hf'
      exact ⟨_, step_of_fetch_invalid hs hf, step_of_fetch_invalid hs' hf'⟩
    | outOfBounds kind i =>
      rw [hf] at hf'
      exact ⟨_, step_of_fetch_outOfBounds hs hf, step_of_fetch_outOfBounds hs' hf'⟩
  · exact ⟨s, step_of_stopped hs, step_of_stopped (s := s.coerced) hs⟩

/-- Settles O35: the step commutes with coercion, and a read coerces in both states. -/
theorem coercedMemoryIsExact : Obligations.CoercedMemoryIsExact := by
  unfold Obligations.CoercedMemoryIsExact
  refine ⟨fun s t h => ?_, State.coerced_memRead⟩
  obtain ⟨u, hu, hu'⟩ := step_commutesWithCoercion s
  obtain rfl := Host.Outcome.next.inj (hu.symm.trans h)
  exact hu'

end Sys2Proof.Machine
end

section
/-! The host: the halt request during a Run, and the invariant under its commands and in the harness (45_testbench.md
sections 1 and 2). -/

namespace Sys2Proof.Machine

/-! ### The halt request (45_testbench.md R115, R117) -/

theorem Runner.command_requestHalt (r : Runner) : r.command .requestHalt = .next { r with haltRequested := true } := by
  simp [Runner.command, Runner.idleCommand]

/-- A requested halt ends the Run before the next step. -/
theorem Runner.tick_of_haltRequested {r : Runner} (hprogress : r.runInProgress = true)
    (hrequest : r.haltRequested = true) : r.tick = { r with runInProgress := false } := by
  simp [Runner.tick, hprogress, hrequest]

theorem Runner.ticks_startRun_core (r : Runner) (n : Nat) :
    (Runner.ticks n r.startRun).core = runBudget n r.core := by
  obtain ⟨_, hcore⟩ := Runner.ticks_runsUnasked r.startRun_runsUnasked n
  rw [runBudget_eq_stepsOf]
  exact hcore

/-- Settles O54: the command's guard, the request's equation, and the iteration that returns on the request. -/
theorem onlyAHaltRequestDuringARun : Obligations.OnlyAHaltRequestDuringARun := by
  unfold Obligations.OnlyAHaltRequestDuringARun
  refine ⟨fun r c hprogress hc => if_pos ⟨hprogress, hc⟩, Runner.command_requestHalt, fun r q hprogress h => ?_⟩
  obtain rfl := Host.Outcome.next.inj (r.command_requestHalt.symm.trans h)
  rw [Runner.tick_of_haltRequested (r := { r with haltRequested := true }) hprogress rfl]
  exact ⟨rfl, rfl, rfl, Runner.ticks_startRun_core _⟩

/-! ### The invariant under the host's commands -/

theorem expandProgram_wf {p : Mapping} {m : Memory} (h : expandProgram p = some m) : m.wf := by
  obtain ⟨entries, hentries, rfl⟩ := Option.map_eq_some_iff.mp h
  obtain ⟨hlt, _⟩ := resolveKeys_spec hentries
  exact Memory.wf_foldl_poke tokenCell Memory.wf_nil hlt

theorem advanceCore_inv {s : State} (h : s.Inv) : (advanceCore s).Inv := h.step (step_eq_advanceCore s)

theorem Runner.load_inv {r q : Runner} {p : Mapping} (hinv : r.core.Inv) (h : r.load p = .next q) : q.core.Inv := by
  obtain ⟨_, hcfg⟩ := hinv
  cases hp : expandProgram p with
  | none => simp [Runner.load, hp] at h
  | some m =>
    obtain rfl : { r with core := r.core.setMem m } = q := by simpa [Runner.load, hp] using h
    exact ⟨expandProgram_wf hp, hcfg⟩

theorem Runner.editCell_inv {r q : Runner} {i : Int} {content : Cell} (hinv : r.core.Inv)
    (h : r.editCell i content = .next q) : q.core.Inv := by
  cases hi : inRange i with
  | false => simp [Runner.editCell, hi] at h
  | true =>
    obtain rfl : { r with core := r.core.setMem (r.core.mem.poke i.toNat content) } = q := by
      simpa [Runner.editCell, hi] using h
    exact hinv.poke hi content

theorem Runner.idleCommand_inv {r q : Runner} {c : Command} (hinv : r.core.Inv) (h : r.idleCommand c = .next q) :
    q.core.Inv := by
  have keeps : ∀ {u : Runner}, r.idleCommand c = .next u → u.core.Inv → q.core.Inv := by
    intro u hcommand hu
    obtain rfl : u = q := Host.Outcome.next.inj (hcommand.symm.trans h)
    exact hu
  cases c with
  | load p => exact Runner.load_inv (p := p) hinv h
  | editCell i content => exact Runner.editCell_inv (i := i) (content := content) hinv h
  | setPc => exact keeps rfl hinv
  | setAcc => exact keeps rfl hinv
  | reset => exact keeps rfl hinv
  | step => exact keeps rfl (advanceCore_inv hinv)
  | run => exact keeps rfl hinv
  | requestHalt => exact keeps rfl hinv
  | observe => exact keeps rfl hinv

/-- An iteration of Run takes one step of the core or none. -/
theorem Runner.tick_core (r : Runner) : r.tick.core = r.core ∨ r.tick.core = advanceCore r.core := by
  unfold Runner.tick
  split
  · exact .inl rfl
  · split
    · exact .inl rfl
    · split
      · exact .inl rfl
      · exact .inr rfl

theorem Runner.tick_inv {r : Runner} (h : r.core.Inv) : r.tick.core.Inv := by
  rcases r.tick_core with hcore | hcore
  · exact hcore ▸ h
  · exact hcore ▸ advanceCore_inv h

/-! ### The invariant in the harness -/

theorem stepsOf_inv {s : State} (h : s.Inv) (n : Nat) : (stepsOf n s).Inv := by
  induction n generalizing s with
  | zero => exact h
  | succ n ih => exact ih (advanceCore_inv h)

theorem cloneMachine_inv {cfg : Config} (h : cfg.wellFormed = true) (baseline : Memory) :
    (cloneMachine cfg baseline).Inv :=
  ⟨Memory.wf_coerced cfg baseline, h⟩

theorem applyOverrides_inv {entries : List (Nat × Token)} (hlt : ∀ e ∈ entries, e.1 < Config.memSize) {s : State}
    (h : s.Inv) : (applyOverrides entries s).Inv := by
  obtain ⟨hmem, hcfg⟩ := h
  rw [applyOverrides_eq_writeEntries]
  exact ⟨Memory.wf_foldl_poke (coercedCell s.cfg) hmem hlt, hcfg⟩

/-- Settles O60: the commands one by one, the step an iteration takes, and the harness's machines in their order. -/
theorem hostKeepsTheInvariant : Obligations.HostKeepsTheInvariant := by
  unfold Obligations.HostKeepsTheInvariant
  refine ⟨fun _ _ _ hinv h => Runner.idleCommand_inv hinv (Runner.idleCommand_of_command h), fun _ => Runner.tick_inv,
    fun cfg baseline hcfg => ?_⟩
  have hclone := cloneMachine_inv hcfg baseline
  refine ⟨hclone, fun before => ?_⟩
  have hstart := applyOverrides_inv (mappingEntries_lt before) hclone
  refine ⟨hstart, ?_⟩
  rw [runCase, runBudget_eq_stepsOf]
  exact stepsOf_inv hstart _

end Sys2Proof.Machine
end
